-- ==== Sys2Proof/Word.lean ====
section
/-! DEFINITION. The two word types of the block: a byte (register, memory cell, operand) and the nine-bit
word of the program counter and of the fault record (R8, R20, R23, R28). -/

namespace Sys2Proof

/-- An 8-bit value (R8). -/
abbrev Byte := BitVec 8

/-- A 9-bit value: `pc` holds 0..256 (R23), and so do FAULT_PC and FAULT_INFO (R28). -/
abbrev Word9 := BitVec 9

end Sys2Proof
end

