-- ==== Sys2Proof/Syntax.lean ====
section
/-! DEFINITION. The instructions: the mnemonics of spec/opcode_table.json, their formats (R71), and the one
inductive `Instr` with a constructor for each row. A register operand is kept as the byte that names it, because
the spec gives every byte value a meaning: 0..7 name a register, and the others raise a fault (R74, R94). -/

namespace Sys2Proof

/-- The 15 instructions of the opcode table, without their operands (R72). -/
inductive Mnemonic where
  | hlt | ldi | prn | add | mul | cmp | push | pop | call | ret | jmp | jeq | jne | sub | div
deriving DecidableEq, Repr

/-- The four instruction formats (R71). -/
inductive Format where
  /-- Opcode only. -/
  | N
  /-- Opcode and a register byte. -/
  | R
  /-- Opcode and two register bytes, regA and then regB. -/
  | RR
  /-- Opcode, a register byte and an immediate byte. -/
  | RI
deriving DecidableEq, Repr

/-- The length in bytes of an instruction of a format (R71, R75). -/
def Format.width : Format → Nat
  | .N => 1
  | .R => 2
  | .RR => 3
  | .RI => 3

/-- The format of each instruction (the format column of R72). -/
def Mnemonic.format : Mnemonic → Format
  | .hlt => .N
  | .ldi => .RI
  | .prn => .R
  | .add => .RR
  | .mul => .RR
  | .cmp => .RR
  | .push => .R
  | .pop => .R
  | .call => .R
  | .ret => .N
  | .jmp => .R
  | .jeq => .R
  | .jne => .R
  | .sub => .RR
  | .div => .RR

/-- The width of each instruction (the width column of R72). -/
def Mnemonic.width (m : Mnemonic) : Nat := m.format.width

/-- One instruction with its operand bytes, in the order they lie in memory (R71). -/
inductive Instr where
  /-- HLT (R110). -/
  | hlt
  /-- LDI r,imm8 (R111). -/
  | ldi (r imm8 : Byte)
  /-- PRN r (R113). -/
  | prn (r : Byte)
  /-- ADD ra,rb (R129). -/
  | add (ra rb : Byte)
  /-- MUL ra,rb (R130). -/
  | mul (ra rb : Byte)
  /-- CMP ra,rb (R131). -/
  | cmp (ra rb : Byte)
  /-- PUSH r (R141). -/
  | push (r : Byte)
  /-- POP r (R142). -/
  | pop (r : Byte)
  /-- CALL r (R151). -/
  | call (r : Byte)
  /-- RET (R152). -/
  | ret
  /-- JMP r (R153). -/
  | jmp (r : Byte)
  /-- JEQ r (R154). -/
  | jeq (r : Byte)
  /-- JNE r (R155). -/
  | jne (r : Byte)
  /-- SUB ra,rb (R132). -/
  | sub (ra rb : Byte)
  /-- DIV ra,rb (R133). -/
  | div (ra rb : Byte)
deriving DecidableEq, Repr

/-- The row of the opcode table an instruction belongs to. -/
def Instr.mnemonic : Instr → Mnemonic
  | .hlt => .hlt
  | .ldi _ _ => .ldi
  | .prn _ => .prn
  | .add _ _ => .add
  | .mul _ _ => .mul
  | .cmp _ _ => .cmp
  | .push _ => .push
  | .pop _ => .pop
  | .call _ => .call
  | .ret => .ret
  | .jmp _ => .jmp
  | .jeq _ => .jeq
  | .jne _ => .jne
  | .sub _ _ => .sub
  | .div _ _ => .div

/-- The width of an instruction: its length in bytes (R13, R75). -/
def Instr.width (i : Instr) : Nat := i.mnemonic.width

/-- The operand bytes in memory order (R71). -/
def Instr.operands : Instr → List Byte
  | .hlt => []
  | .ldi r imm8 => [r, imm8]
  | .prn r => [r]
  | .add ra rb => [ra, rb]
  | .mul ra rb => [ra, rb]
  | .cmp ra rb => [ra, rb]
  | .push r => [r]
  | .pop r => [r]
  | .call r => [r]
  | .ret => []
  | .jmp r => [r]
  | .jeq r => [r]
  | .jne r => [r]
  | .sub ra rb => [ra, rb]
  | .div ra rb => [ra, rb]

/-- The operand bytes that are register indices, in byte order: both of RR, byte 1 of R and of RI (R91). -/
def Instr.regOperands : Instr → List Byte
  | .hlt => []
  | .ldi r _ => [r]
  | .prn r => [r]
  | .add ra rb => [ra, rb]
  | .mul ra rb => [ra, rb]
  | .cmp ra rb => [ra, rb]
  | .push r => [r]
  | .pop r => [r]
  | .call r => [r]
  | .ret => []
  | .jmp r => [r]
  | .jeq r => [r]
  | .jne r => [r]
  | .sub ra rb => [ra, rb]
  | .div ra rb => [ra, rb]

/-- HLT and the five control-flow instructions, which the default advance of `pc` does not touch (R96, R97). -/
def Instr.setsPcItself : Instr → Bool
  | .hlt | .call _ | .ret | .jmp _ | .jeq _ | .jne _ => true
  | .ldi _ _ | .prn _ | .add _ _ | .mul _ _ | .cmp _ _ | .push _ | .pop _ | .sub _ _ | .div _ _ => false

end Sys2Proof
end

