-- ==== Sys2Proof/Config.lean ====
section
/-! DEFINITION. The implementation parameters (R7, R100): OPCODE_MAP, EXT_SUB_DIV, SP_INIT and REG_RESET, and the
constraints an OPCODE_MAP must satisfy (R73). The values the fixed machine uses stand in Decode.lean. -/

namespace Sys2Proof

/-- `OPCODE_MAP`: a byte for each instruction (R7, R72). The bytes of SUB and DIV count only when `EXT_SUB_DIV`
is true. -/
structure OpcodeMap where
  hlt : Byte
  ldi : Byte
  prn : Byte
  add : Byte
  mul : Byte
  cmp : Byte
  push : Byte
  pop : Byte
  call : Byte
  ret : Byte
  jmp : Byte
  jeq : Byte
  jne : Byte
  sub : Byte
  div : Byte
deriving DecidableEq, Repr

/-- The byte the map gives an instruction. -/
def OpcodeMap.byte (o : OpcodeMap) : Mnemonic → Byte
  | .hlt => o.hlt
  | .ldi => o.ldi
  | .prn => o.prn
  | .add => o.add
  | .mul => o.mul
  | .cmp => o.cmp
  | .push => o.push
  | .pop => o.pop
  | .call => o.call
  | .ret => o.ret
  | .jmp => o.jmp
  | .jeq => o.jeq
  | .jne => o.jne
  | .sub => o.sub
  | .div => o.div

/-- The implementation parameters that are not fixed by the source (R7). -/
structure Config where
  /-- `OPCODE_MAP`. -/
  opcodeMap : OpcodeMap
  /-- `EXT_SUB_DIV`: SUB and DIV have opcodes. -/
  extSubDiv : Bool
  /-- `SP_INIT`: the value of R7 after reset. -/
  spInit : Byte
  /-- `REG_RESET`: the values of R0..R6 after reset, which the spec leaves open (R37). -/
  regReset : Vector Byte 7
deriving DecidableEq, Repr

/-- The 13 instructions every configuration has (R4). -/
def Mnemonic.core : List Mnemonic :=
  [.hlt, .ldi, .prn, .add, .mul, .cmp, .push, .pop, .call, .ret, .jmp, .jeq, .jne]

/-- The instructions a configuration has: SUB and DIV only under `EXT_SUB_DIV` (R72). -/
def Config.present (c : Config) : List Mnemonic :=
  Mnemonic.core ++ (if c.extSubDiv then [.sub, .div] else [])

/-- The constraints (1) and (2) of R73: distinct bytes, and 0xFF unassigned. Constraint (3), that width and
format do not depend on the map, holds of every map here, because `Mnemonic.format` takes none. -/
abbrev Config.wf (c : Config) : Prop :=
  (c.present.map c.opcodeMap.byte).Nodup ∧ 0xFF#8 ∉ c.present.map c.opcodeMap.byte

end Sys2Proof
end

