-- ==== Sys2Proof/WellFormed.lean ====
section
/-! DEFINITION. Which instructions are well-formed: each register operand names one of R0..R7 (R74), and, in a
configuration, the instruction is one the configuration has (R72). An instruction that is not well-formed still has
a meaning: it raises the fault of R94, or its opcode is unknown (R77). -/

namespace Sys2Proof

/-- Every register operand is an index 0..7 (R74). -/
def Instr.wellFormed (i : Instr) : Bool := i.regOperands.all fun b => b.toNat < 8

/-- The configuration has an opcode for the instruction (R72). -/
def Instr.presentIn (i : Instr) (c : Config) : Bool := c.present.contains i.mnemonic

end Sys2Proof
end

