-- ==== Sys2Proof/Decode.lean ====
section
/-! DEFINITION. The decoder and the encoder (R70 to R80, R93), the default values of the parameters (R7, R72), the
assembler text of an instruction (R81) and `decodeTableWord`. -/

namespace Sys2Proof

/-- The default OPCODE_MAP (R72): values the spec takes from general knowledge of the LS-8 (G2, G3; log 1). -/
def OpcodeMap.ls8 : OpcodeMap where
  hlt := 0x01#8
  ldi := 0x82#8
  prn := 0x47#8
  add := 0xA0#8
  mul := 0xA2#8
  cmp := 0xA7#8
  push := 0x45#8
  pop := 0x46#8
  call := 0x50#8
  ret := 0x11#8
  jmp := 0x54#8
  jeq := 0x55#8
  jne := 0x56#8
  sub := 0xA1#8
  div := 0xA3#8

/-- The spec's default configuration (R7). `regReset` is open there, and 0 here (DESIGN CHOICE, unsafe: log 4). -/
def Config.specDefault : Config where
  opcodeMap := OpcodeMap.ls8
  extSubDiv := false
  spInit := 0xF4#8
  regReset := #v[0, 0, 0, 0, 0, 0, 0]

/-- The configuration of the fixed machine `Sys2Proof.core`: the spec's default with `EXT_SUB_DIV` true, so that
every row of the opcode table runs (DESIGN CHOICE, unsafe: log 2). -/
def Config.machine : Config := { Config.specDefault with extSubDiv := true }

/-- Why bytes hold no instruction. -/
inductive DecodeError where
  /-- Byte `k` of the instruction (0 the opcode, 1 and 2 the operands) is not there. -/
  | missingByte (k : Nat)
  /-- The opcode byte is one that OPCODE_MAP does not assign (R77). -/
  | unknownOpcode (op : Byte)
deriving DecidableEq, Repr

/-- `Decode(op)`: the instruction OPCODE_MAP assigns to the byte, the whole byte compared (R72, R93). -/
def decodeOpcode (c : Config) (op : Byte) : Option Mnemonic :=
  c.present.find? fun m => c.opcodeMap.byte m == op

/-- Read the operand byte of format R. -/
def oneOperand (make : Byte → Instr) : List Byte → Except DecodeError (Instr × List Byte)
  | [] => .error (.missingByte 1)
  | b1 :: rest => .ok (make b1, rest)

/-- Read the operand bytes of format RR or RI, in address order (R95). -/
def twoOperands (make : Byte → Byte → Instr) : List Byte → Except DecodeError (Instr × List Byte)
  | [] => .error (.missingByte 1)
  | [_] => .error (.missingByte 2)
  | b1 :: b2 :: rest => .ok (make b1 b2, rest)

/-- Read the operand bytes of an instruction from the bytes after its opcode (R71, R95). -/
def decodeOperands (m : Mnemonic) (bytes : List Byte) : Except DecodeError (Instr × List Byte) :=
  match m with
  | .hlt => .ok (.hlt, bytes)
  | .ldi => twoOperands .ldi bytes
  | .prn => oneOperand .prn bytes
  | .add => twoOperands .add bytes
  | .mul => twoOperands .mul bytes
  | .cmp => twoOperands .cmp bytes
  | .push => oneOperand .push bytes
  | .pop => oneOperand .pop bytes
  | .call => oneOperand .call bytes
  | .ret => .ok (.ret, bytes)
  | .jmp => oneOperand .jmp bytes
  | .jeq => oneOperand .jeq bytes
  | .jne => oneOperand .jne bytes
  | .sub => twoOperands .sub bytes
  | .div => twoOperands .div bytes

/-- The instruction at the start of a list of bytes, and the bytes after it. The opcode is decoded before any
operand byte is looked at (R178). -/
def decode (c : Config) : List Byte → Except DecodeError (Instr × List Byte)
  | [] => .error (.missingByte 0)
  | op :: rest =>
    match decodeOpcode c op with
    | none => .error (.unknownOpcode op)
    | some m => decodeOperands m rest

/-- The bytes of an instruction: its opcode and its operands in memory order (R70, R71). -/
def encode (c : Config) (i : Instr) : List Byte := c.opcodeMap.byte i.mnemonic :: i.operands

/-- Byte `k` of an instruction whose bits are `w`, bit 0 the least significant bit of its first byte; the bits at
`nbits` and above are 0. -/
def tableByte (nbits w k : Nat) : Byte := BitVec.ofNat 8 ((w % 2 ^ nbits) >>> (8 * k))

/-- The three bytes of a table word, in address order (R55); three is the longest instruction (R70). -/
def tableBytes (nbits w : Nat) : List Byte := [tableByte nbits w 0, tableByte nbits w 1, tableByte nbits w 2]

/-- The instruction the decoder of the fixed machine reads from a table word. -/
def decodeTableWord (nbits w : Nat) : Option Instr :=
  match decode Config.machine (tableBytes nbits w) with
  | .ok (i, _) => some i
  | .error _ => none

/-- `Rk`, as R81 writes a register. -/
def regText (r : Byte) : String := "R" ++ toString r.toNat

/-- The assembler text of an instruction (R81). -/
def assemblyText : Instr → String
  | .hlt => "HLT"
  | .ldi r imm8 => "LDI " ++ regText r ++ "," ++ toString imm8.toNat
  | .prn r => "PRN " ++ regText r
  | .add ra rb => "ADD " ++ regText ra ++ "," ++ regText rb
  | .mul ra rb => "MUL " ++ regText ra ++ "," ++ regText rb
  | .cmp ra rb => "CMP " ++ regText ra ++ "," ++ regText rb
  | .push r => "PUSH " ++ regText r
  | .pop r => "POP " ++ regText r
  | .call r => "CALL " ++ regText r
  | .ret => "RET"
  | .jmp r => "JMP " ++ regText r
  | .jeq r => "JEQ " ++ regText r
  | .jne r => "JNE " ++ regText r
  | .sub ra rb => "SUB " ++ regText ra ++ "," ++ regText rb
  | .div ra rb => "DIV " ++ regText ra ++ "," ++ regText rb

end Sys2Proof
end

