-- ==== Sys2Proof/Machine/State.lean ====
section
/-! DEFINITION. The architectural state of R38 as plain data, the reasons a step can stop, and the state after
reset (R37). -/

namespace Sys2Proof.Machine

/-- The flag register `FL` (R25). -/
inductive Flag where
  /-- No CMP since reset. -/
  | unset
  | equal
  | lessThan
  | greaterThan
deriving DecidableEq, Repr

/-- The run state `RS` (R27). -/
inductive RunState where
  | running
  /-- Entered by HLT. -/
  | halted
  /-- Entered by a fault. -/
  | faulted
deriving DecidableEq, Repr

/-- The four faults of the block (R170). -/
inductive Cause where
  | unknownOpcode
  | unsupportedAluOperation
  | addressOutOfRange
  | divideByZero
deriving DecidableEq, Repr

/-- The fault record (R28). -/
structure FaultRecord where
  /-- `FAULT_CODE`. -/
  code : BitVec 3
  /-- `FAULT_PC`. -/
  pc : Word9
  /-- `FAULT_OPCODE`. -/
  opcode : Byte
  /-- `FAULT_INFO`. -/
  info : Word9
deriving DecidableEq, Repr

/-- The fault record when no fault has been taken: every field 0 (R28). -/
def FaultRecord.clear : FaultRecord := ⟨0, 0, 0, 0⟩

/-- The 256-byte memory (R50): address and byte pairs, addresses strictly rising, no byte 0. An address that is
not listed holds 0 (R51). -/
abbrev Memory := List Host.Cell

/-- The complete architectural state (R38). -/
structure State where
  /-- R0..R7 (R20); R7 is the stack pointer (R21). -/
  regs : Vector Byte 8
  /-- The program counter, 0..256 (R23). -/
  pc : Word9
  /-- The flag register (R25). -/
  fl : Flag
  /-- The run state (R27). -/
  rs : RunState
  /-- The fault record (R28). -/
  fault : FaultRecord
  /-- The memory (R50, R51). -/
  mem : Memory
  /-- The output trace: the bytes emitted so far, oldest first (R38, R112). -/
  output : List Byte
deriving DecidableEq, Repr

/-- Why a step has no next state. The faults of the spec are not here: taking one is a next state whose run state
is FAULTED (R174, log 5). -/
inductive Fault where
  /-- Raised by `step` alone, when `RS` is HALTED: the block has no step (R90). Safe: the spec gives none. -/
  | halted
  /-- Raised by `step` alone, when `RS` is FAULTED: the block has no step (R90). Safe: the spec gives none. -/
  | faulted
deriving DecidableEq, Repr

/-- Why an instruction has no meaning. -/
inductive Refusal where
  /-- Raised by an arm of `exec` whose instruction has no meaning yet. Safe: the run stops. No arm raises it: every
  instruction has its meaning. -/
  | notModelled (mnemonic : String)
deriving DecidableEq, Repr

/-- What a step or a meaning answers. -/
abbrev Result := Host.Outcome State Fault Refusal

/-- The state of a block with configuration `c` after its first reset, with no program loaded (R37): R0..R6 at
REG_RESET, SP at SP_INIT, every memory cell 0. -/
def State.initial (c : Config) : State where
  regs := c.regReset.push c.spInit
  pc := 0
  fl := .unset
  rs := .running
  fault := FaultRecord.clear
  mem := []
  output := []

/-- The fixed machine right after reset (R37; R0..R6 are 0 by DESIGN CHOICE, unsafe: log 4). -/
def State.reset : State := State.initial Config.machine

end Sys2Proof.Machine
end

