-- ==== Sys2Proof/Machine/Ops.lean ====
section
/-! DEFINITION. The named operations every meaning is made of: memory access (R52, R53), register access (R20,
R21), `pc`, `FL`, `Emit` (R112), `halt` (R110), taking a fault (R174, R175), the stack checks (R140), loading an
image (R196) and the reset transition (R190, R191), which is the only way out of a fault (R181). -/

namespace Sys2Proof.Machine

/-! ### Memory -/

/-- `MemRead(a, 1)` (R52). An address that is not listed holds 0 (R51). -/
def Memory.read : Memory → Nat → Byte
  | [], _ => 0#8
  | (b, w) :: m, a => if a = b then w else Memory.read m a

/-- `MemWrite(a, 1, v)` (R53), which keeps the canonical form: writing 0 removes the entry. -/
def Memory.write : Memory → Nat → Byte → Memory
  | [], a, v => if v = 0#8 then [] else [(a, v)]
  | (b, w) :: m, a, v =>
    if a < b then (if v = 0#8 then (b, w) :: m else (a, v) :: (b, w) :: m)
    else if a = b then (if v = 0#8 then m else (a, v) :: m)
    else (b, w) :: Memory.write m a v

/-- The canonical form of a memory: addresses strictly rising and at most 255, no entry 0. -/
abbrev Memory.wf (m : Memory) : Prop :=
  m.Pairwise (fun x y => x.1 < y.1) ∧ ∀ x ∈ m, x.1 < 256 ∧ x.2 ≠ 0#8

/-- Write bytes at consecutive addresses from `a`. A byte beyond address 255 has no cell and is left out: what a load
of more than 256 bytes does is left open by R196 and N14 (DESIGN CHOICE, unsafe: log 15). -/
def Memory.writeBytes : Memory → Nat → List Byte → Memory
  | m, _, [] => m
  | m, a, v :: vs => Memory.writeBytes (if a < 256 then Memory.write m a v else m) (a + 1) vs

/-! ### Registers, program counter, flag, output -/

/-- The index of the stack pointer, `SP_INDEX` (R7, R21). -/
def spIndex : Fin 8 := 7

/-- `x[i]` (R10). -/
def State.reg (s : State) (i : Fin 8) : Byte := s.regs.get i

/-- `x[i] <- v` (R10). -/
def State.setReg (s : State) (i : Fin 8) (v : Byte) : State := { s with regs := s.regs.set i.val v i.isLt }

/-- `SP`, another name for `x[7]` (R21). -/
def State.sp (s : State) : Byte := s.reg spIndex

/-- `SP <- v` (R21). -/
def State.setSp (s : State) (v : Byte) : State := s.setReg spIndex v

/-- `pc <- target` for a target held in a byte: the full byte, so 0..255 (R150). -/
def State.jumpTo (s : State) (target : Byte) : State := { s with pc := target.setWidth 9 }

/-- The default advance `pc <- p + w` (R96). -/
def State.advance (s : State) (w : Nat) : State := { s with pc := s.pc + BitVec.ofNat 9 w }

/-- `FL <- f` (R10). -/
def State.setFl (s : State) (f : Flag) : State := { s with fl := f }

/-- `Emit(v)`: one output event, appended to the output trace (R112). -/
def State.emit (s : State) (v : Byte) : State := { s with output := s.output ++ [v] }

/-- `halt`: the block enters HALTED and `pc` stays (R110). -/
def State.halt (s : State) : State := { s with rs := .halted }

/-- `MemRead(a, 1)` at an address held in a byte. -/
def State.load (s : State) (a : Byte) : Byte := s.mem.read a.toNat

/-- `MemWrite(a, 1, v)` at an address held in a byte. -/
def State.store (s : State) (a v : Byte) : State := { s with mem := s.mem.write a.toNat v }

/-- The low eight bits of a number: `n mod 256` (R9). -/
def narrow (n : Nat) : Byte := BitVec.ofNat 8 n

/-! ### Taking a fault -/

/-- The value of `FAULT_CODE` for each fault (R170). -/
def Cause.code : Cause → BitVec 3
  | .unknownOpcode => 1
  | .unsupportedAluOperation => 2
  | .addressOutOfRange => 3
  | .divideByZero => 4

/-- The opcode byte at `pc`, or 0 when `pc` is beyond memory: what `FAULT_OPCODE` gets (R175). A faulting
instruction has written nothing, so memory still holds the byte that was fetched (DEDUCED, safe: log 9). -/
def State.opcodeAtPc (s : State) : Byte := if s.pc.toNat < 256 then s.mem.read s.pc.toNat else 0

/-- Taking a fault (R174, R175): nothing but the run state and the fault record is written. -/
def State.takeFault (s : State) (cause : Cause) (info : Word9) : State :=
  { s with
    rs := .faulted
    fault := { code := cause.code, pc := s.pc, opcode := s.opcodeAtPc, info := info } }

/-- `raise <Fault>(info)` (R10): the instruction ends, in the state the fault leaves. -/
def raise (s : State) (cause : Cause) (info : Word9) : Result := .next (s.takeFault cause info)

/-! ### Stack checks -/

/-- `PushCheck()` (R140): the new stack pointer, or a fault at SP = 0 with FAULT_INFO = 0x1FF. -/
def withPushCheck (s : State) (k : Byte → Result) : Result :=
  if s.sp.toNat = 0 then raise s .addressOutOfRange 0x1FF#9 else k (narrow (s.sp.toNat - 1))

/-- `PopCheck(n)` (R140): the stack pointer a pop leaves, or a fault at n = 256. -/
def withPopCheck (s : State) (n : Nat) (k : Byte → Result) : Result :=
  if 255 < n then raise s .addressOutOfRange (BitVec.ofNat 9 n) else k (narrow n)

/-! ### The host's actions -/

/-- The reset transition, from any run state (R36, R190): memory is kept (R191). The output trace starts again
with the new run (DESIGN CHOICE, unsafe: log 8). -/
def State.resetFrom (c : Config) (s : State) : State := { State.initial c with mem := s.mem }

/-- A block whose host has loaded an image of at most 256 bytes from address 0, every other cell 0, and released reset
(R196). What a longer image leaves is the model's choice (DESIGN CHOICE, unsafe: log 15). -/
def State.boot (c : Config) (image : List Byte) : State :=
  { State.initial c with mem := Memory.writeBytes [] 0 image }

end Sys2Proof.Machine
end

