-- ==== Sys2Proof/Machine/Flags.lean ====
section
/-! DEFINITION. The flag computations: what CMP computes (R126), what JEQ and JNE test (R154, R155), and the
storage encoding of `FL` (R26), which no instruction can observe. -/

namespace Sys2Proof.Machine

/-- The unsigned three-way comparison of CMP (R126). -/
def compareFlag (a b : Byte) : Flag :=
  if a.toNat = b.toNat then .equal else if a.toNat < b.toNat then .lessThan else .greaterThan

/-- The condition of JEQ, and the negation of JNE's: `FL = EQUAL` (R154, R155). -/
def Flag.isEqual : Flag → Bool
  | .equal => true
  | .unset => false
  | .lessThan => false
  | .greaterThan => false

/-- The one-hot field `FL[2:0]` = `L G E` (R26). -/
def Flag.bits : Flag → BitVec 3
  | .unset => 0b000#3
  | .equal => 0b001#3
  | .greaterThan => 0b010#3
  | .lessThan => 0b100#3

end Sys2Proof.Machine
end

