-- ==== Sys2Proof/Machine/Alu.lean ====
section
/-! DEFINITION. The ALU: a pure function of a selector and two bytes (R120 to R128), and its output lines. -/

namespace Sys2Proof.Machine

/-- The two faults the ALU can raise (R125, R127). -/
inductive AluFault where
  | unsupportedOperation
  | divideByZero
deriving DecidableEq, Repr

/-- The block's fault for a fault of the ALU (R170). -/
def AluFault.cause : AluFault → Cause
  | .unsupportedOperation => .unsupportedAluOperation
  | .divideByZero => .divideByZero

/-- What the ALU returns (R120): a byte for the destination register, a flag for `FL`, or a fault. -/
inductive AluResult where
  | value (v : Byte)
  | flag (f : Flag)
  | fault (e : AluFault)
deriving DecidableEq, Repr

/-- The 4-bit selector `alu_op` of ADD (R121). -/
def aluAdd : BitVec 4 := 0x0#4
/-- The selector of SUB (R121). -/
def aluSub : BitVec 4 := 0x1#4
/-- The selector of MUL (R121). -/
def aluMul : BitVec 4 := 0x2#4
/-- The selector of DIV (R121). -/
def aluDiv : BitVec 4 := 0x3#4
/-- The selector of CMP (R121). -/
def aluCmp : BitVec 4 := 0x7#4

/-- `ALU(op, a, b)` (R120, R122 to R127). Results are computed on integers and narrowed to a byte. -/
def alu (op : BitVec 4) (a b : Byte) : AluResult :=
  if op = aluAdd then .value (narrow (a.toNat + b.toNat))
  else if op = aluSub then .value (BitVec.ofInt 8 ((a.toNat : Int) - b.toNat))
  else if op = aluMul then .value (narrow (a.toNat * b.toNat))
  else if op = aluDiv then (if b.toNat = 0 then .fault .divideByZero else .value (narrow (a.toNat / b.toNat)))
  else if op = aluCmp then .flag (compareFlag a b)
  else .fault .unsupportedOperation

/-- The output lines of the ALU (R120). `none` stands for a write enable (or `alu_fault`) of 0; the spec gives the
data lines no value then. -/
structure AluPorts where
  /-- `alu_result` and `alu_result_we`. -/
  result : Option Byte
  /-- `alu_flag`, in the encoding of R26, and `alu_flag_we`. -/
  flag : Option (BitVec 3)
  /-- `alu_fault_code` and `alu_fault`. -/
  fault : Option (BitVec 3)
deriving DecidableEq, Repr

/-- The output lines for a result (R120). -/
def aluPorts : AluResult → AluPorts
  | .value v => ⟨some v, none, none⟩
  | .flag f => ⟨none, some f.bits, none⟩
  | .fault e => ⟨none, none, some e.cause.code⟩

end Sys2Proof.Machine
end

