-- ==== Sys2Proof/Machine/Operands.lean ====
section
/-! DEFINITION. The operand forms: a register byte, checked whole (R74, R94), and the immediate byte, used as it
is (R74), so that it needs no operation. -/

namespace Sys2Proof.Machine

/-- `RegIndex(b)` (R94): go on with the register the byte names, or fault with FAULT_INFO = b. -/
def withReg (s : State) (b : Byte) (k : Fin 8 → Result) : Result :=
  if h : b.toNat < 8 then k ⟨b.toNat, h⟩ else raise s .addressOutOfRange (b.setWidth 9)

/-- The two register operands of format RR, checked in byte order (R178). -/
def withRegs (s : State) (ra rb : Byte) (k : Fin 8 → Fin 8 → Result) : Result :=
  withReg s ra fun a => withReg s rb fun b => k a b

end Sys2Proof.Machine
end

