-- ==== Sys2Proof/Machine/Arith.lean ====
section
/-! DEFINITION. The meanings of ADD, MUL, CMP, SUB and DIV (spec/42_alu.md), over one shared operation that drives
the ALU and does the writing for it (R120). -/

namespace Sys2Proof.Machine

/-- Write what the ALU returned and advance by 3. A value goes to regA and a flag to `FL`. A fault writes nothing:
FAULT_INFO is the selector of an unsupported operation (R127), and the divisor's index for a zero divisor (R177). -/
def writeAluResult (s : State) (op : BitVec 4) (a b : Fin 8) : AluResult → Result
  | .value v => .next ((s.setReg a v).advance 3)
  | .flag f => .next ((s.setFl f).advance 3)
  | .fault .unsupportedOperation => raise s .unsupportedAluOperation (op.setWidth 9)
  | .fault .divideByZero => raise s .divideByZero (BitVec.ofNat 9 b.val)

/-- A two-register ALU instruction: check both indices, read both registers, drive the selector, write. -/
def execAlu (op : BitVec 4) (ra rb : Byte) (s : State) : Result :=
  withRegs s ra rb fun a b => writeAluResult s op a b (alu op (s.reg a) (s.reg b))

/-- ADD (R129). -/
def execAdd (ra rb : Byte) (s : State) : Result := execAlu aluAdd ra rb s

/-- MUL (R130). -/
def execMul (ra rb : Byte) (s : State) : Result := execAlu aluMul ra rb s

/-- CMP (R131). -/
def execCmp (ra rb : Byte) (s : State) : Result := execAlu aluCmp ra rb s

/-- SUB (R132). -/
def execSub (ra rb : Byte) (s : State) : Result := execAlu aluSub ra rb s

/-- DIV (R133). -/
def execDiv (ra rb : Byte) (s : State) : Result := execAlu aluDiv ra rb s

end Sys2Proof.Machine
end

