-- ==== Sys2Proof/Machine/Stack.lean ====
section
/-! DEFINITION. The meanings of PUSH and POP (spec/43_stack.md), and the two stack operations that CALL and RET
share with them (R59, R140). -/

namespace Sys2Proof.Machine

/-- Move SP down and store at the new SP a byte that is read after SP has moved (R59, R141, R151). -/
def State.pushByte (s : State) (newSp : Byte) (v : State → Byte) : State :=
  (s.setSp newSp).store newSp (v (s.setSp newSp))

/-- PUSH (R141): `SP <- SP - 1`, then `Memory[SP] <- x[r]`. -/
def execPush (r : Byte) (s : State) : Result :=
  withReg s r fun i => withPushCheck s fun a => .next ((s.pushByte a fun t => t.reg i).advance 2)

/-- POP (R142): `x[r] <- Memory[SP]`, then `SP <- SP + 1`; the bound is checked on the SP value that will be
written, before anything is. -/
def execPop (r : Byte) (s : State) : Result :=
  withReg s r fun i =>
    withPopCheck s ((s.setReg i (s.load s.sp)).sp.toNat + 1) fun n =>
      .next (((s.setReg i (s.load s.sp)).setSp n).advance 2)

end Sys2Proof.Machine
end

