-- ==== Sys2Proof/Machine/Control.lean ====
section
/-! DEFINITION. The meanings of CALL, RET, JMP, JEQ and JNE (spec/44_control_transfer.md), which set `pc`
themselves (R97). -/

namespace Sys2Proof.Machine

/-- The check CALL makes on its return address `p + 2`: it must fit in a byte (R151). -/
def withReturnAddress (s : State) (k : Byte → Result) : Result :=
  if 255 < s.pc.toNat + 2 then raise s .addressOutOfRange (BitVec.ofNat 9 (s.pc.toNat + 2))
  else k (narrow (s.pc.toNat + 2))

/-- CALL (R151): push `p + 2`, then `pc <- x[r]`, which is read after SP has moved. -/
def execCall (r : Byte) (s : State) : Result :=
  withReg s r fun i =>
    withReturnAddress s fun ret =>
      withPushCheck s fun a =>
        .next ((s.pushByte a fun _ => ret).jumpTo ((s.pushByte a fun _ => ret).reg i))

/-- RET (R152): `pc <- Memory[SP]`, then `SP <- SP + 1`. -/
def execRet (s : State) : Result :=
  withPopCheck s (s.sp.toNat + 1) fun n => .next ((s.setSp n).jumpTo (s.load s.sp))

/-- JMP (R153): `pc <- x[r]`. -/
def execJmp (r : Byte) (s : State) : Result :=
  withReg s r fun i => .next (s.jumpTo (s.reg i))

/-- A conditional jump: to `x[r]`, or on to `p + 2`. The register index is checked either way (R94). -/
def jumpIf (taken : Bool) (r : Byte) (s : State) : Result :=
  withReg s r fun i => .next (if taken then s.jumpTo (s.reg i) else s.advance 2)

/-- JEQ (R154). -/
def execJeq (r : Byte) (s : State) : Result := jumpIf s.fl.isEqual r s

/-- JNE (R155). -/
def execJne (r : Byte) (s : State) : Result := jumpIf (!s.fl.isEqual) r s

end Sys2Proof.Machine
end

