-- ==== Sys2Proof/Machine/LoadPrint.lean ====
section
/-! DEFINITION. The meanings of HLT, LDI and PRN (spec/41_halt_load_print.md). A meaning runs after the fetch of the
opcode and of every operand byte (R91), in a state whose `pc` is still `p`. -/

namespace Sys2Proof.Machine

/-- HLT (R110): `halt`; `pc` stays. -/
def execHlt (s : State) : Result := .next s.halt

/-- LDI (R111): `x[r] <- imm8`. -/
def execLdi (r imm8 : Byte) (s : State) : Result :=
  withReg s r fun i => .next ((s.setReg i imm8).advance 3)

/-- PRN (R113): `Emit(x[r])`. -/
def execPrn (r : Byte) (s : State) : Result :=
  withReg s r fun i => .next ((s.emit (s.reg i)).advance 2)

end Sys2Proof.Machine
end

