-- ==== Sys2Proof/Machine/Dispatch.lean ====
section
/-! DEFINITION. The dispatcher: one arm for each instruction (R2, R93). -/

namespace Sys2Proof.Machine

/-- `Execute_I` of R91, with the register-index checks and the default advance, for a block that is RUNNING. -/
def exec (i : Instr) (s : State) : Host.Outcome State Fault Refusal :=
  match i with
  | .hlt => Sys2Proof.Machine.execHlt s
  | .ldi r imm8 => Sys2Proof.Machine.execLdi r imm8 s
  | .prn r => Sys2Proof.Machine.execPrn r s
  | .add ra rb => Sys2Proof.Machine.execAdd ra rb s
  | .mul ra rb => Sys2Proof.Machine.execMul ra rb s
  | .cmp ra rb => Sys2Proof.Machine.execCmp ra rb s
  | .push r => Sys2Proof.Machine.execPush r s
  | .pop r => Sys2Proof.Machine.execPop r s
  | .call r => Sys2Proof.Machine.execCall r s
  | .ret => Sys2Proof.Machine.execRet s
  | .jmp r => Sys2Proof.Machine.execJmp r s
  | .jeq r => Sys2Proof.Machine.execJeq r s
  | .jne r => Sys2Proof.Machine.execJne r s
  | .sub ra rb => Sys2Proof.Machine.execSub ra rb s
  | .div ra rb => Sys2Proof.Machine.execDiv ra rb s

end Sys2Proof.Machine
end

