-- ==== Sys2Proof/Machine/Fetch.lean ====
section
/-! DEFINITION. Fetching (R92, R95): the bytes from `pc` on that exist, and the fault each decoding error stands
for (R92, R93, R176). -/

namespace Sys2Proof.Machine

/-- The bytes at the addresses `a`, `a + 1`, … (at most `n` of them) that lie in memory. -/
def bytesFrom (m : Memory) (a : Nat) : Nat → List Byte
  | 0 => []
  | n + 1 => if a < 256 then m.read a :: bytesFrom m (a + 1) n else []

/-- The bytes the next instruction can use: up to three, from `pc`, none beyond address 255 (R70, R92). -/
def State.codeBytes (s : State) : List Byte := bytesFrom s.mem s.pc.toNat 3

/-- The fault of a failed fetch or decode: a missing byte `k` is a fetch at `pc + k > 255` (R92), an unknown opcode
is UnknownOpcodeFault (R93). -/
def raiseDecodeError (s : State) : DecodeError → Result
  | .missingByte k => raise s .addressOutOfRange (BitVec.ofNat 9 (s.pc.toNat + k))
  | .unknownOpcode op => raise s .unknownOpcode (op.setWidth 9)

/-- Store bytes where the next instruction is fetched: from `pc` on. -/
def State.placeAtPc (s : State) (bytes : List Byte) : State :=
  { s with mem := s.mem.writeBytes s.pc.toNat bytes }

end Sys2Proof.Machine
end

