-- ==== Sys2Proof/Machine/Step.lean ====
section
/-! DEFINITION. One step (R91, R100) in any configuration, and the step of the fixed machine. -/

namespace Sys2Proof.Machine

/-- Fetch, decode and execute one instruction. A block that is HALTED or FAULTED has no step (R90). -/
def stepWith (c : Config) (s : State) : Result :=
  match s.rs with
  | .halted => .fault .halted
  | .faulted => .fault .faulted
  | .running =>
    match decode c s.codeBytes with
    | .error e => raiseDecodeError s e
    | .ok (i, _) => exec i s

/-- The step of the fixed machine. -/
def step : State → Host.Outcome State Fault Refusal := stepWith Config.machine

/-- The state with a table word stored at `pc`, where `step` fetches next. It stands for what the loader does before
a run (log 7). -/
def State.withFetchWord (s : State) (nbits w : Nat) : State := s.placeAtPc (tableBytes nbits w)

end Sys2Proof.Machine
end

