-- ==== Sys2Proof/Machine/Ports.lean ====
section
/-! DEFINITION. What the host sees of a state and of a step: the status port (R35), the output event (R34), the
lines it prints (R112), and the memory-port accesses of a step in their order (R61, R67). Nothing here is state
(R31, R38). -/

namespace Sys2Proof.Machine

/-- The status port (R35). -/
structure StatusPort where
  halted : Bool
  faulted : Bool
  faultCode : BitVec 3
  faultPc : Word9
  faultOpcode : Byte
  faultInfo : Word9
deriving DecidableEq, Repr

/-- What the status port shows (R35). -/
def State.status (s : State) : StatusPort where
  halted := s.rs == .halted
  faulted := s.rs == .faulted
  faultCode := s.fault.code
  faultPc := s.fault.pc
  faultOpcode := s.fault.opcode
  faultInfo := s.fault.info

/-- The line of text the host makes of an output event: decimal, no sign, no leading zeros (R112, D20). -/
def printedLine (v : Byte) : String := toString v.toNat

/-- The register a byte names; `none` for a byte that names no register (R94). -/
def State.regOf? (s : State) (b : Byte) : Option Byte :=
  if h : b.toNat < 8 then some (s.reg ⟨b.toNat, h⟩) else none

/-- The output event of the next step: the byte on `out_data` when `out_valid` is set (R34). -/
def outputEvent (c : Config) (s : State) : Option Byte :=
  match s.rs, decode c s.codeBytes with
  | .running, .ok (.prn r, _) => s.regOf? r
  | _, _ => none

/-- One access on the memory port, with its address and byte (R33). -/
inductive Access where
  | read (a : Nat) (v : Byte)
  | write (a : Nat) (v : Byte)
deriving DecidableEq, Repr

/-- Fetches at `a`, `a + 1`, …, `n` of them, up to the first address beyond memory (R92, R95). -/
def fetchAccesses (m : Memory) (a : Nat) : Nat → List Access
  | 0 => []
  | n + 1 => if a < 256 then .read a (m.read a) :: fetchAccesses m (a + 1) n else []

/-- The access of a push: none when SP is 0, else the write at SP - 1 (R67, R140). -/
def pushAccess (s : State) (v : Option Byte) : List Access :=
  match v with
  | none => []
  | some v => if s.sp.toNat = 0 then [] else [.write (s.sp.toNat - 1) v]

/-- The data accesses of an instruction whose bytes have been fetched (R67). A register byte of 8 or more faults
before any of them; POP and RET read before they check the new SP (R142, R152). -/
def dataAccesses (i : Instr) (s : State) : List Access :=
  match i with
  | .push r => pushAccess s (if r.toNat = 7 then some (s.sp - 1#8) else s.regOf? r)
  | .call r =>
    if s.pc.toNat + 2 ≤ 255 then pushAccess s ((s.regOf? r).map fun _ => narrow (s.pc.toNat + 2)) else []
  | .pop r => if r.toNat < 8 then [.read s.sp.toNat (s.load s.sp)] else []
  | .ret => [.read s.sp.toNat (s.load s.sp)]
  | .hlt | .ldi _ _ | .prn _ | .add _ _ | .mul _ _ | .cmp _ _ | .jmp _ | .jeq _ | .jne _ | .sub _ _ | .div _ _ => []

/-- The operand fetches of the next step, which happen when the opcode is known (R67, R95). -/
def operandAccesses (c : Config) (s : State) : List Access :=
  match decodeOpcode c (s.mem.read s.pc.toNat) with
  | none => []
  | some m => fetchAccesses s.mem (s.pc.toNat + 1) (m.width - 1)

/-- The memory-port accesses of the next step, in order (R61, R67). -/
def portTrace (c : Config) (s : State) : List Access :=
  match s.rs with
  | .halted => []
  | .faulted => []
  | .running =>
    if s.pc.toNat < 256 then
      .read s.pc.toNat (s.mem.read s.pc.toNat) :: operandAccesses c s ++
        (match decode c s.codeBytes with
         | .ok (i, _) => dataAccesses i s
         | .error _ => [])
    else []

/-- What a list of accesses does to memory: its writes, in order. -/
def applyAccesses : List Access → Memory → Memory
  | [], m => m
  | .read _ _ :: rest, m => applyAccesses rest m
  | .write a v :: rest, m => applyAccesses rest (m.write a v)

/-- The addresses a list of accesses reads, in order. -/
def readAddresses : List Access → List Nat
  | [] => []
  | .read a _ :: rest => a :: readAddresses rest
  | .write _ _ :: rest => readAddresses rest

/-- The addresses a list of accesses writes, in order. -/
def writeAddresses : List Access → List Nat
  | [] => []
  | .read _ _ :: rest => writeAddresses rest
  | .write a _ :: rest => a :: writeAddresses rest

end Sys2Proof.Machine
end

