-- ==== Sys2Proof/Safety.lean ====
section
/-! DEFINITION. The terms claims are made in: the outcomes of R12, the end of a run (R101), the invariant of a block,
the list of checks of R178 and the `pc` table of R24. -/

namespace Sys2Proof.Machine

/-! ### Outcomes and runs -/

/-- The four outcomes of a step (R12, R100). -/
inductive StepOutcome where
  | next (s : State)
  | halted (s : State)
  | faulted (s : State) (record : FaultRecord)
  /-- The block was already HALTED or FAULTED. -/
  | noStep
deriving DecidableEq, Repr

/-- The outcome of R12 that an answer of `step` stands for (log 5). -/
def StepOutcome.ofResult : Result → StepOutcome
  | .next t =>
    match t.rs with
    | .running => .next t
    | .halted => .halted t
    | .faulted => .faulted t t.fault
  | .fault _ => .noStep
  | .refused _ => .noStep

/-- How a run of a bounded number of steps ends (R101, U15). -/
inductive RunEnd where
  | halted (s : State)
  | faulted (s : State)
  /-- The run has not ended. -/
  | outOfFuel (s : State)
deriving DecidableEq, Repr

/-- What a state says of its run (R101). -/
def RunEnd.ofState (s : State) : RunEnd :=
  match s.rs with
  | .running => .outOfFuel s
  | .halted => .halted s
  | .faulted => .faulted s

/-- Run at most `fuel` steps (R90). -/
def runFuel (c : Config) : Nat → State → RunEnd
  | 0, s => .ofState s
  | fuel + 1, s =>
    match stepWith c s with
    | .next t => runFuel c fuel t
    | .fault _ => .ofState s
    | .refused _ => .ofState s

/-- A run of `fuel` steps is safe when it does not end in FAULTED (R101). -/
def SafeRun (c : Config) (fuel : Nat) (s : State) : Prop := ∀ t, runFuel c fuel s ≠ .faulted t

/-! ### The invariant -/

/-- What the fault record says in FAULTED (R174, R175): `pc` is still the faulting instruction's and memory still
holds its opcode; the code is one a program can reach (R173), and an unknown opcode and a zero divisor have the
opcode byte they must have. -/
def FaultRecordAgrees (c : Config) (s : State) : Prop :=
  s.fault.pc = s.pc ∧ s.fault.opcode = s.opcodeAtPc ∧
    ((s.fault.code = 1#3 ∧ s.pc.toNat < 256 ∧ decodeOpcode c s.fault.opcode = none ∧
        s.fault.info = s.fault.opcode.setWidth 9) ∨
      s.fault.code = 3#3 ∨
      (s.fault.code = 4#3 ∧ s.pc.toNat < 256 ∧ decodeOpcode c s.fault.opcode = some .div))

/-- The invariant of a block with configuration `c`: memory is in canonical form, `pc` is 0..256 (R23), the fault
record is 0 except in FAULTED (R28, R35), a HALTED block stands at the HLT byte (R110), and a FAULTED block's record
describes the instruction `pc` stands at (R175). -/
structure State.Inv (c : Config) (s : State) : Prop where
  memory : s.mem.wf
  pcRange : s.pc.toNat ≤ 256
  recordClear : s.rs ≠ .faulted → s.fault = FaultRecord.clear
  haltedAtHlt : s.rs = .halted → s.pc.toNat < 256 ∧ decodeOpcode c s.opcodeAtPc = some .hlt
  recordAgrees : s.rs = .faulted → FaultRecordAgrees c s

/-! ### The checks of a step, in the order of R178 -/

/-- One check: whether it fails, and the fault it then raises. -/
structure Check where
  failed : Bool
  cause : Cause
  info : Word9
deriving DecidableEq, Repr

/-- Check 3 of R178: the operand fetches, in address order. -/
def operandFetchChecks (p width : Nat) : List Check :=
  (List.range (width - 1)).map fun k => ⟨256 ≤ p + (k + 1), .addressOutOfRange, BitVec.ofNat 9 (p + (k + 1))⟩

/-- Check 4 of R178: the register-index bytes, in byte order. -/
def registerChecks (i : Instr) : List Check :=
  i.regOperands.map fun b => ⟨8 ≤ b.toNat, .addressOutOfRange, b.setWidth 9⟩

/-- The byte a pop reads. -/
def topOfStack (s : State) : Nat := (s.mem.read s.sp.toNat).toNat

/-- Check 5 of R178: the instruction's own checks, in the order of its rule. -/
def ownChecks (s : State) : Instr → List Check
  | .push _ => [⟨s.sp.toNat = 0, .addressOutOfRange, 0x1FF#9⟩]
  | .pop r =>
    [⟨(if r.toNat = 7 then topOfStack s else s.sp.toNat) + 1 = 256, .addressOutOfRange, 256#9⟩]
  | .call _ =>
    [⟨256 ≤ s.pc.toNat + 2, .addressOutOfRange, BitVec.ofNat 9 (s.pc.toNat + 2)⟩,
     ⟨s.sp.toNat = 0, .addressOutOfRange, 0x1FF#9⟩]
  | .ret => [⟨s.sp.toNat + 1 = 256, .addressOutOfRange, 256#9⟩]
  | .div _ rb => [⟨s.regOf? rb = some 0, .divideByZero, rb.setWidth 9⟩]
  | .hlt | .ldi _ _ | .prn _ | .add _ _ | .mul _ _ | .cmp _ _ | .jmp _ | .jeq _ | .jne _ | .sub _ _ => []

/-- The instruction of a mnemonic with operand bytes `b1` and `b2`, those its format has (R71). -/
def instrOf (m : Mnemonic) (b1 b2 : Byte) : Instr :=
  match m with
  | .hlt => .hlt
  | .ldi => .ldi b1 b2
  | .prn => .prn b1
  | .add => .add b1 b2
  | .mul => .mul b1 b2
  | .cmp => .cmp b1 b2
  | .push => .push b1
  | .pop => .pop b1
  | .call => .call b1
  | .ret => .ret
  | .jmp => .jmp b1
  | .jeq => .jeq b1
  | .jne => .jne b1
  | .sub => .sub b1 b2
  | .div => .div b1 b2

/-- The instruction at `pc` when its opcode is `m`'s, by the bytes of memory. -/
def instrAtPc (s : State) (m : Mnemonic) : Instr :=
  instrOf m (s.mem.read (s.pc.toNat + 1)) (s.mem.read (s.pc.toNat + 2))

/-- The checks of a step in the order of R178. A check after a failed one may look at bytes that do not exist; it
decides nothing, because the first failing check does. -/
def checksOf (c : Config) (s : State) : List Check :=
  ⟨256 ≤ s.pc.toNat, .addressOutOfRange, s.pc⟩ ::
    match decodeOpcode c (s.mem.read s.pc.toNat) with
    | none => [⟨true, .unknownOpcode, (s.mem.read s.pc.toNat).setWidth 9⟩]
    | some m =>
      operandFetchChecks s.pc.toNat m.width ++ registerChecks (instrAtPc s m) ++ ownChecks s (instrAtPc s m)

/-! ### The table of R24 -/

/-- The new `pc` of an instruction that does not fault (R24); for CALL R7 it is the SP the push leaves (R151, D9). -/
def nextPc (s : State) : Instr → Nat
  | .hlt => s.pc.toNat
  | .ldi _ _ => s.pc.toNat + 3
  | .prn _ => s.pc.toNat + 2
  | .add _ _ => s.pc.toNat + 3
  | .mul _ _ => s.pc.toNat + 3
  | .cmp _ _ => s.pc.toNat + 3
  | .push _ => s.pc.toNat + 2
  | .pop _ => s.pc.toNat + 2
  | .call r => if r.toNat = 7 then s.sp.toNat - 1 else ((s.regOf? r).getD 0).toNat
  | .ret => topOfStack s
  | .jmp r => ((s.regOf? r).getD 0).toNat
  | .jeq r => if s.fl = .equal then ((s.regOf? r).getD 0).toNat else s.pc.toNat + 2
  | .jne r => if s.fl = .equal then s.pc.toNat + 2 else ((s.regOf? r).getD 0).toNat
  | .sub _ _ => s.pc.toNat + 3
  | .div _ _ => s.pc.toNat + 3

end Sys2Proof.Machine
end

