-- ==== Sys2Proof/Certificates/Slice0/Obligations.lean ====
section
/-! DEFINITION. The statements for the provers. Each docstring names the rule of spec/ it rests on. Where a statement
says `takeFault`, the FAULT_OPCODE it writes is the byte memory holds at `pc`, the model's deduction from R175 (log
9). -/

open Sys2Proof Sys2Proof.Machine

/-! ### Encoding and decoding -/

/-- Decoding the encoding of an instruction that the configuration has gives the instruction back and leaves the bytes
after it, for every OPCODE_MAP that satisfies R73 and every operand byte (R70, R71, R75). -/
def Obligations.DecodeEncodeRoundTrip : Prop :=
  ∀ c : Config, c.wf → ∀ i : Instr, i.presentIn c = true → ∀ rest : List Byte,
    decode c (encode c i ++ rest) = .ok (i, rest)

/-- Whatever decodes is an instruction the configuration has, and the bytes it was read from are its encoding: no byte
is skipped, and as many are read as its width (R70, R75). -/
def Obligations.DecodedBytesAreTheEncoding : Prop :=
  ∀ (c : Config) (bytes : List Byte) (i : Instr) (rest : List Byte), decode c bytes = .ok (i, rest) →
    bytes = encode c i ++ rest ∧ i.presentIn c = true ∧ bytes.length = i.width + rest.length

/-- `Decode(op)` (R93): the instruction OPCODE_MAP assigns to the byte, and for a byte it does not assign,
UnknownOpcodeFault with FAULT_OPCODE and FAULT_INFO the byte. -/
def Obligations.DecodeIsTheOpcodeMap : Prop :=
  ∀ c : Config, c.wf → ∀ op : Byte,
    (∀ m : Mnemonic, decodeOpcode c op = some m ↔ m ∈ c.present ∧ c.opcodeMap.byte m = op) ∧
    ∀ s : State, s.rs = .running → s.pc.toNat ≤ 255 → s.mem.read s.pc.toNat = op →
      (∀ m ∈ c.present, c.opcodeMap.byte m ≠ op) →
      ∃ t, stepWith c s = .next t ∧ t.rs = .faulted ∧ t.fault.code = 1#3 ∧ t.fault.opcode = op ∧
        t.fault.info = op.setWidth 9

/-- An unknown opcode is a fault with code 1 (R172): it is fatal and not an HLT, `pc` does not advance and the byte is
not skipped. That nothing else is written but the record, with this `pc` in it, is the spec's decision D10 (R174,
R175). -/
def Obligations.UnknownOpcodeIsFatal : Prop :=
  ∀ (c : Config) (s : State), s.rs = .running → s.pc.toNat ≤ 255 →
    (∀ m ∈ c.present, c.opcodeMap.byte m ≠ s.mem.read s.pc.toNat) →
    ∃ t, stepWith c s = .next t ∧ t.pc = s.pc ∧ t.rs = .faulted ∧ t.fault.code = 1#3 ∧
      t.fault.pc = s.pc ∧ t.regs = s.regs ∧ t.fl = s.fl ∧ t.mem = s.mem ∧ t.output = s.output ∧
      ∀ u, stepWith c t ≠ .next u

/-- The default map satisfies the constraints of R73, with SUB and DIV and without: distinct bytes, 0xFF unassigned,
and the format and width R72 gives each of its fifteen rows. The byte values are general knowledge of the LS-8 and not
the source's (R72, D3; log 1), and the format of SUB and DIV is the spec's decision D17. -/
def Obligations.DefaultMapSatisfiesConstraints : Prop :=
  Config.specDefault.wf ∧ Config.machine.wf ∧
  (Mnemonic.hlt.format = .N ∧ Mnemonic.hlt.width = 1) ∧ (Mnemonic.ldi.format = .RI ∧ Mnemonic.ldi.width = 3) ∧
  (Mnemonic.prn.format = .R ∧ Mnemonic.prn.width = 2) ∧ (Mnemonic.add.format = .RR ∧ Mnemonic.add.width = 3) ∧
  (Mnemonic.mul.format = .RR ∧ Mnemonic.mul.width = 3) ∧ (Mnemonic.cmp.format = .RR ∧ Mnemonic.cmp.width = 3) ∧
  (Mnemonic.push.format = .R ∧ Mnemonic.push.width = 2) ∧ (Mnemonic.pop.format = .R ∧ Mnemonic.pop.width = 2) ∧
  (Mnemonic.call.format = .R ∧ Mnemonic.call.width = 2) ∧ (Mnemonic.ret.format = .N ∧ Mnemonic.ret.width = 1) ∧
  (Mnemonic.jmp.format = .R ∧ Mnemonic.jmp.width = 2) ∧ (Mnemonic.jeq.format = .R ∧ Mnemonic.jeq.width = 2) ∧
  (Mnemonic.jne.format = .R ∧ Mnemonic.jne.width = 2) ∧ (Mnemonic.sub.format = .RR ∧ Mnemonic.sub.width = 3) ∧
  (Mnemonic.div.format = .RR ∧ Mnemonic.div.width = 3)

/-- With the default map 243 bytes are illegal, and 241 with SUB and DIV; 0x00, 0xFF and 0xA8 are among them, 0xA1 and
0xA3 exactly without the extension (R77, R132, R133, R135). The byte values are general knowledge (R72; log 1), and
that `Config.machine` has the extension is the model's choice (log 2). -/
def Obligations.IllegalOpcodeBytes : Prop :=
  ((List.range 256).filter fun n => (decodeOpcode Config.specDefault (BitVec.ofNat 8 n)).isNone).length = 243 ∧
  ((List.range 256).filter fun n => (decodeOpcode Config.machine (BitVec.ofNat 8 n)).isNone).length = 241 ∧
  (∀ op ∈ [0x00#8, 0xFF#8, 0xA8#8],
    decodeOpcode Config.specDefault op = none ∧ decodeOpcode Config.machine op = none) ∧
  decodeOpcode Config.specDefault 0xA1#8 = none ∧ decodeOpcode Config.specDefault 0xA3#8 = none ∧
  decodeOpcode Config.machine 0xA1#8 = some .sub ∧ decodeOpcode Config.machine 0xA3#8 = some .div

/-- The six encoding examples of R84, which the spec derives from the default map (log 1), and two of their words in the
opcode table's numbering. -/
def Obligations.EncodingExamplesDecode : Prop :=
  encode Config.specDefault (.ldi 0 8) = [0b10000010#8, 0b00000000#8, 0b00001000#8] ∧
  decode Config.specDefault [0x82#8, 0x00#8, 0x08#8] = .ok (.ldi 0 8, []) ∧
  decode Config.specDefault [0xA2#8, 0x00#8, 0x01#8] = .ok (.mul 0 1, []) ∧
  decode Config.specDefault [0x47#8, 0x00#8] = .ok (.prn 0, []) ∧
  decode Config.specDefault [0x01#8] = .ok (.hlt, []) ∧
  decode Config.specDefault [0x45#8, 0x07#8] = .ok (.push 7, []) ∧
  decode Config.specDefault [0x56#8, 0x03#8] = .ok (.jne 3, []) ∧
  decodeTableWord 24 0x080082 = some (.ldi 0 8) ∧ decodeTableWord 16 0x0356 = some (.jne 3)

/-! ### The step -/

/-- When the bytes from `pc` on decode to an instruction, the step is that instruction's meaning, in every configuration
and in the fixed machine, whose configuration is the model's choice (R91; log 1 to 4). The bytes are those of memory
at `pc`, `pc + 1` and `pc + 2`. -/
def Obligations.StepRunsTheDecodedInstruction : Prop :=
  (∀ (c : Config) (s : State) (i : Instr) (rest : List Byte), s.rs = .running →
    decode c s.codeBytes = .ok (i, rest) → stepWith c s = exec i s) ∧
  (∀ (s : State) (i : Instr) (rest : List Byte), s.rs = .running →
    decode Config.machine s.codeBytes = .ok (i, rest) → step s = exec i s) ∧
  (∀ (s : State) (bytes : List Byte), s.pc.toNat + bytes.length ≤ 256 → bytes.length ≤ 3 →
    (∀ k < bytes.length, some (s.mem.read (s.pc.toNat + k)) = bytes[k]?) → ∃ more, s.codeBytes = bytes ++ more)

/-- A HALTED or FAULTED block has no step (R90), which the model answers with a fault of its own name (log 5); a RUNNING
one always has a step, to a next state. -/
def Obligations.StepExistsExactlyWhenRunning : Prop :=
  ∀ (c : Config) (s : State), (s.rs = .running ↔ ∃ t, stepWith c s = .next t) ∧
    (s.rs = .halted → stepWith c s = .fault .halted) ∧ (s.rs = .faulted → stepWith c s = .fault .faulted)

/-- `Fetch(a)` (R92): an address beyond 255 raises AddressOutOfRangeFault with FAULT_INFO = a, for the opcode and for
each operand byte (the spec's decision D4); otherwise the byte used is the one memory holds there. -/
def Obligations.FetchBeyondMemoryFaults : Prop :=
  ∀ (c : Config) (s : State), s.rs = .running →
    (255 < s.pc.toNat → stepWith c s = .next (s.takeFault .addressOutOfRange s.pc)) ∧
    (∀ (m : Mnemonic) (k : Nat), s.pc.toNat ≤ 255 → decodeOpcode c (s.mem.read s.pc.toNat) = some m →
      k < m.width → s.pc.toNat + k = 256 → stepWith c s = .next (s.takeFault .addressOutOfRange 256#9)) ∧
    (∀ m : Mnemonic, decodeOpcode c (s.mem.read s.pc.toNat) = some m → s.pc.toNat + m.width ≤ 256 →
      stepWith c s = exec (instrOf m (s.mem.read (s.pc.toNat + 1)) (s.mem.read (s.pc.toNat + 2))) s)

/-- `RegIndex(b)` (R94): a byte 0..7 is that register, and in every instruction the first register byte of 8 or more,
whether or not the operand would be used (the spec's decision D24), raises AddressOutOfRangeFault with FAULT_INFO =
b. -/
def Obligations.RegisterIndexIsAlwaysChecked : Prop :=
  (∀ (s : State) (b : Byte) (hb : b.toNat < 8) (k : Fin 8 → Result), withReg s b k = k ⟨b.toNat, hb⟩) ∧
  ∀ (i : Instr) (s : State) (b : Byte), (i.regOperands.find? fun b => 8 ≤ b.toNat) = some b →
    exec i s = .next (s.takeFault .addressOutOfRange (b.setWidth 9))

/-- The fault of a step is that of the first failing check, in the order of R178 (the spec's decision D15): opcode
fetch, decode, operand fetches, register indices, the instruction's own checks. When no check fails, the step does
not fault. -/
def Obligations.StepFaultIsTheFirstFailingCheck : Prop :=
  ∀ (c : Config) (s : State), s.rs = .running →
    match (checksOf c s).find? (·.failed) with
    | some check => stepWith c s = .next (s.takeFault check.cause check.info)
    | none => ∃ t, stepWith c s = .next t ∧ t.rs ≠ .faulted

/-! ### Taking a fault -/

/-- What the operation `takeFault` writes (R174, R175, the spec's decisions D10 to D12): the run state and the record,
with the code of R170, the `pc` and the opcode byte (0 when `pc` is beyond memory), and nothing else. That the opcode
byte is the one memory holds at `pc`, where R175 says the byte fetched there, is the model's deduction (DEDUCED, log
9). -/
def Obligations.TakingAFaultWritesTheRecord : Prop :=
  Cause.unknownOpcode.code = 1#3 ∧ Cause.unsupportedAluOperation.code = 2#3 ∧
  Cause.addressOutOfRange.code = 3#3 ∧ Cause.divideByZero.code = 4#3 ∧
  ∀ (s : State) (cause : Cause) (info : Word9),
    let t := s.takeFault cause info
    t.rs = .faulted ∧ t.fault.code = cause.code ∧ t.fault.pc = s.pc ∧ t.fault.info = info ∧
    (s.pc.toNat ≤ 255 → t.fault.opcode = s.mem.read s.pc.toNat) ∧ (255 < s.pc.toNat → t.fault.opcode = 0#8) ∧
    t.regs = s.regs ∧ t.pc = s.pc ∧ t.fl = s.fl ∧ t.mem = s.mem ∧ t.output = s.output

/-- Faults are precise (R174, the spec's decision D10): a step that ends in FAULTED has written no register, flag,
memory cell or output event, `pc` is still the instruction's, and the record names that `pc`. That its FAULT_OPCODE
is the byte memory holds at `pc` is the model's deduction (DEDUCED, log 9). -/
def Obligations.FaultsArePrecise : Prop :=
  ∀ (c : Config) (s t : State), stepWith c s = .next t → t.rs = .faulted →
    t.regs = s.regs ∧ t.fl = s.fl ∧ t.mem = s.mem ∧ t.output = s.output ∧ t.pc = s.pc ∧
    t.fault.pc = s.pc ∧ t.fault.opcode = s.opcodeAtPc ∧ t.fault.code ≠ 0#3

/-- UnsupportedALUOperationFault, code 2 (R173): the ALU raises it exactly on a selector outside its five, and no step
in any configuration ever records it. -/
def Obligations.UnsupportedAluFaultIsUnreachable : Prop :=
  AluFault.unsupportedOperation.cause.code = 2#3 ∧
  (∀ (op : BitVec 4) (a b : Byte),
    alu op a b = .fault .unsupportedOperation ↔ op ∉ [aluAdd, aluSub, aluMul, aluDiv, aluCmp]) ∧
  ∀ (c : Config) (s t : State), stepWith c s = .next t → t.rs = .faulted → t.fault.code ≠ 2#3

/-- DivideByZeroFault (R177): DIV raises it when the divisor register holds 0, with the divisor's register index, and no
other instruction does (the spec's decision D12). -/
def Obligations.DivideByZeroFaults : Prop :=
  (∀ (s : State) (ra rb : Byte), ra.toNat < 8 → (hb : rb.toNat < 8) → s.reg ⟨rb.toNat, hb⟩ = 0#8 →
    exec (.div ra rb) s = .next (s.takeFault .divideByZero (rb.setWidth 9))) ∧
  ∀ (c : Config) (s t : State), stepWith c s = .next t → t.rs = .faulted → t.fault.code = 4#3 →
    ∃ (ra rb : Byte) (rest : List Byte) (hb : rb.toNat < 8), decode c s.codeBytes = .ok (.div ra rb, rest) ∧
      s.reg ⟨rb.toNat, hb⟩ = 0#8

/-! ### The invariant -/

/-- The invariant holds after reset: in every configuration at first, for the fixed machine, and after a reset of any
state whose memory is in canonical form (R37, R190, R191). -/
def Obligations.ResetMeetsTheInvariant : Prop :=
  (∀ c : Config, (State.initial c).Inv c) ∧ State.reset.Inv Config.machine ∧
  ∀ (c : Config) (s : State), s.mem.wf → (s.resetFrom c).Inv c

/-- Every step keeps the invariant: canonical memory, `pc` in 0..256 (R23), the record 0 outside FAULTED (R28), HALTED
at an HLT byte (R110), and in FAULTED a record that describes the instruction at `pc` (R175, with the byte
memory holds there for FAULT_OPCODE: DEDUCED, log 9). -/
def Obligations.EveryStepKeepsTheInvariant : Prop :=
  (∀ (c : Config) (s t : State), s.Inv c → stepWith c s = .next t → t.Inv c) ∧
  ∀ s t : State, s.Inv Config.machine → step s = .next t → t.Inv Config.machine

/-! ### What each instruction does -/

/-- HLT (R110): HALTED, and nothing else changes; that `pc` stays is the spec's decision D16. -/
def Obligations.HltHalts : Prop := ∀ s : State, exec .hlt s = .next { s with rs := .halted }

/-- LDI (R111): register r holds exactly the immediate, `pc` has advanced by 3, and nothing else changes. -/
def Obligations.LdiLoadsTheImmediate : Prop :=
  ∀ (s : State) (r imm8 : Byte) (hr : r.toNat < 8),
    ∃ t, exec (.ldi r imm8) s = .next t ∧ t.reg ⟨r.toNat, hr⟩ = imm8 ∧
      t = { s with regs := s.regs.set r.toNat imm8 hr, pc := s.pc + 3#9 }

/-- PRN (R113): one output event with the register's byte, `pc` has advanced by 2, and nothing else changes. -/
def Obligations.PrnEmitsTheRegister : Prop :=
  ∀ (s : State) (r : Byte) (hr : r.toNat < 8),
    exec (.prn r) s = .next { s with output := s.output ++ [s.reg ⟨r.toNat, hr⟩], pc := s.pc + 2#9 }

/-- ADD (R129): regA <- (regA + regB) mod 256, `pc` has advanced by 3, and nothing else changes. -/
def Obligations.AddWrapsModulo256 : Prop :=
  ∀ (s : State) (ra rb : Byte) (ha : ra.toNat < 8) (hb : rb.toNat < 8),
    ∃ v : Byte, v.toNat = ((s.reg ⟨ra.toNat, ha⟩).toNat + (s.reg ⟨rb.toNat, hb⟩).toNat) % 256 ∧
      exec (.add ra rb) s = .next { s with regs := s.regs.set ra.toNat v ha, pc := s.pc + 3#9 }

/-- MUL (R130): regA <- (regA * regB) mod 256, `pc` has advanced by 3, and nothing else changes. -/
def Obligations.MulKeepsTheLowByte : Prop :=
  ∀ (s : State) (ra rb : Byte) (ha : ra.toNat < 8) (hb : rb.toNat < 8),
    ∃ v : Byte, v.toNat = ((s.reg ⟨ra.toNat, ha⟩).toNat * (s.reg ⟨rb.toNat, hb⟩).toNat) % 256 ∧
      exec (.mul ra rb) s = .next { s with regs := s.regs.set ra.toNat v ha, pc := s.pc + 3#9 }

/-- SUB (R132): regA <- (regA - regB) mod 256, a negative difference having 256 added, `pc` has advanced by 3, and
nothing else changes. The instruction's form is the spec's decision D17. -/
def Obligations.SubWrapsModulo256 : Prop :=
  ∀ (s : State) (ra rb : Byte) (ha : ra.toNat < 8) (hb : rb.toNat < 8),
    ∃ v : Byte, v.toNat = ((s.reg ⟨ra.toNat, ha⟩).toNat + 256 - (s.reg ⟨rb.toNat, hb⟩).toNat) % 256 ∧
      exec (.sub ra rb) s = .next { s with regs := s.regs.set ra.toNat v ha, pc := s.pc + 3#9 }

/-- DIV by a divisor that is not 0 (R133): regA <- floor(regA / regB), `pc` has advanced by 3, and nothing else changes.
The instruction's form is the spec's decision D17. -/
def Obligations.DivTruncates : Prop :=
  ∀ (s : State) (ra rb : Byte) (ha : ra.toNat < 8) (hb : rb.toNat < 8), s.reg ⟨rb.toNat, hb⟩ ≠ 0#8 →
    ∃ v : Byte, v.toNat = (s.reg ⟨ra.toNat, ha⟩).toNat / (s.reg ⟨rb.toNat, hb⟩).toNat ∧
      exec (.div ra rb) s = .next { s with regs := s.regs.set ra.toNat v ha, pc := s.pc + 3#9 }

/-- CMP (R131): FL gets the unsigned three-way comparison, never UNSET, `pc` has advanced by 3, and nothing else
changes. -/
def Obligations.CmpSetsTheFlag : Prop :=
  ∀ (s : State) (ra rb : Byte) (ha : ra.toNat < 8) (hb : rb.toNat < 8),
    ∃ f : Flag, exec (.cmp ra rb) s = .next { s with fl := f, pc := s.pc + 3#9 } ∧
      (f = .equal ↔ s.reg ⟨ra.toNat, ha⟩ = s.reg ⟨rb.toNat, hb⟩) ∧
      (f = .lessThan ↔ (s.reg ⟨ra.toNat, ha⟩).toNat < (s.reg ⟨rb.toNat, hb⟩).toNat) ∧
      (f = .greaterThan ↔ (s.reg ⟨rb.toNat, hb⟩).toNat < (s.reg ⟨ra.toNat, ha⟩).toNat) ∧ f ≠ .unset

/-- PUSH with SP not 0 (R141): SP moves down by one and the byte at the new SP becomes the register's value, which for
R7 is the new SP; `pc` has advanced by 2, and nothing else changes. With SP = 0 it faults with FAULT_INFO = 0x1FF.
The value pushed for R7 is the spec's decision D9. -/
def Obligations.PushStoresBelow : Prop :=
  ∀ (s : State) (r : Byte) (hr : r.toNat < 8),
    (s.sp ≠ 0#8 →
      exec (.push r) s = .next { s with
        regs := s.regs.set 7 (s.sp - 1#8)
        mem := s.mem.write (s.sp.toNat - 1) (if r = 7#8 then s.sp - 1#8 else s.reg ⟨r.toNat, hr⟩)
        pc := s.pc + 2#9 }) ∧
    (s.sp = 0#8 → exec (.push r) s = .next (s.takeFault .addressOutOfRange 0x1FF#9))

/-- POP (R142): the register gets the byte at SP and SP moves up by one; for R7 the popped byte plus one is left. When
the new SP would be 256 it faults with FAULT_INFO = 256 (the spec's decisions D9 and D13). -/
def Obligations.PopLoadsTheTop : Prop :=
  ∀ (s : State) (r : Byte) (hr : r.toNat < 8) (v : Byte), s.mem.read s.sp.toNat = v →
    (r ≠ 7#8 → s.sp ≠ 0xFF#8 →
      exec (.pop r) s = .next { s with
        regs := (s.regs.set r.toNat v hr).set 7 (s.sp + 1#8), pc := s.pc + 2#9 }) ∧
    (r = 7#8 → v ≠ 0xFF#8 →
      exec (.pop r) s = .next { s with regs := s.regs.set 7 (v + 1#8), pc := s.pc + 2#9 }) ∧
    ((r ≠ 7#8 ∧ s.sp = 0xFF#8) ∨ (r = 7#8 ∧ v = 0xFF#8) →
      exec (.pop r) s = .next (s.takeFault .addressOutOfRange 256#9))

/-- CALL (R151): `p + 2` is pushed and `pc` gets the register's byte, which for R7 is the new SP. A return address that
does not fit in a byte faults first, then SP = 0 (the spec's decisions D9, D14 and D15). -/
def Obligations.CallPushesTheReturnAddress : Prop :=
  ∀ (s : State) (r : Byte) (hr : r.toNat < 8),
    (s.pc.toNat + 2 ≤ 255 → s.sp ≠ 0#8 →
      exec (.call r) s = .next { s with
        regs := s.regs.set 7 (s.sp - 1#8)
        mem := s.mem.write (s.sp.toNat - 1) (BitVec.ofNat 8 (s.pc.toNat + 2))
        pc := (if r = 7#8 then s.sp - 1#8 else s.reg ⟨r.toNat, hr⟩).setWidth 9 }) ∧
    (255 < s.pc.toNat + 2 →
      exec (.call r) s = .next (s.takeFault .addressOutOfRange (BitVec.ofNat 9 (s.pc.toNat + 2)))) ∧
    (s.pc.toNat + 2 ≤ 255 → s.sp = 0#8 → exec (.call r) s = .next (s.takeFault .addressOutOfRange 0x1FF#9))

/-- RET (R152): `pc` gets the byte at SP and SP moves up by one, unless SP = 0xFF, which faults with FAULT_INFO = 256
(the spec's decision D13). -/
def Obligations.RetPopsThePc : Prop :=
  ∀ s : State,
    (s.sp ≠ 0xFF#8 →
      exec .ret s = .next { s with
        regs := s.regs.set 7 (s.sp + 1#8), pc := (s.mem.read s.sp.toNat).setWidth 9 }) ∧
    (s.sp = 0xFF#8 → exec .ret s = .next (s.takeFault .addressOutOfRange 256#9))

/-- JMP (R153): `pc` gets the register's byte, and nothing else changes. -/
def Obligations.JmpGoesToTheRegister : Prop :=
  ∀ (s : State) (r : Byte) (hr : r.toNat < 8),
    ∃ t, exec (.jmp r) s = .next t ∧ t.pc.toNat = (s.reg ⟨r.toNat, hr⟩).toNat ∧ t = { s with pc := t.pc }

/-- JEQ (R154): to the register's byte when FL is EQUAL, else to `p + 2`; nothing else changes. -/
def Obligations.JeqJumpsWhenEqual : Prop :=
  ∀ (s : State) (r : Byte) (hr : r.toNat < 8),
    (s.fl = .equal → exec (.jeq r) s = .next { s with pc := (s.reg ⟨r.toNat, hr⟩).setWidth 9 }) ∧
    (s.fl ≠ .equal → exec (.jeq r) s = .next { s with pc := s.pc + 2#9 })

/-- JNE (R155): to the register's byte when FL is not EQUAL (UNSET too), else to `p + 2`; nothing else changes. -/
def Obligations.JneJumpsWhenNotEqual : Prop :=
  ∀ (s : State) (r : Byte) (hr : r.toNat < 8),
    (s.fl ≠ .equal → exec (.jne r) s = .next { s with pc := (s.reg ⟨r.toNat, hr⟩).setWidth 9 }) ∧
    (s.fl = .equal → exec (.jne r) s = .next { s with pc := s.pc + 2#9 })

/-- The ALU on ADD (R122), MUL (R124) and CMP (R126): the sum and the product modulo 256, and the unsigned three-way
comparison, which gives no value. -/
def Obligations.AluAddMulAndCmp : Prop :=
  ∀ a b : Byte,
    (∃ v : Byte, alu aluAdd a b = .value v ∧ v.toNat = (a.toNat + b.toNat) % 256) ∧
    (∃ v : Byte, alu aluMul a b = .value v ∧ v.toNat = (a.toNat * b.toNat) % 256) ∧
    (a = b → alu aluCmp a b = .flag .equal) ∧
    (a.toNat < b.toNat → alu aluCmp a b = .flag .lessThan) ∧
    (b.toNat < a.toNat → alu aluCmp a b = .flag .greaterThan)

/-- The rest of the ALU, in the spec's own decisions D12, D17 and D18: the selectors of R121 (general knowledge, log
14), the difference modulo 256 (R123), the truncating quotient with a fault on 0 (R125), and for every other
selector an instruction that writes nothing and records the selector (R127). -/
def Obligations.AluSubDivAndSelectors : Prop :=
  aluAdd = 0x0#4 ∧ aluSub = 0x1#4 ∧ aluMul = 0x2#4 ∧ aluDiv = 0x3#4 ∧ aluCmp = 0x7#4 ∧
  (∀ a b : Byte,
    (∃ v : Byte, alu aluSub a b = .value v ∧ (v.toNat : Int) = ((a.toNat : Int) - b.toNat) % 256) ∧
    (b = 0#8 → alu aluDiv a b = .fault .divideByZero) ∧
    (b ≠ 0#8 → ∃ v : Byte, alu aluDiv a b = .value v ∧ v.toNat = a.toNat / b.toNat)) ∧
  ∀ op ∈ [0x4#4, 0x5#4, 0x6#4, 0x8#4, 0x9#4, 0xA#4, 0xB#4, 0xC#4, 0xD#4, 0xE#4, 0xF#4],
    ∀ (s : State) (ra rb : Byte), ra.toNat < 8 → rb.toNat < 8 →
      execAlu op ra rb s = .next (s.takeFault .unsupportedAluOperation (op.setWidth 9))

/-! ### Frames -/

/-- The frame of LDI, PRN, ADD, MUL, CMP, SUB and DIV: every register but the destination, the flag but for CMP, the
output trace but for PRN, and all of memory are unchanged; the run state and the fault record are, unless the
instruction faults, and then nothing else changes. -/
def Obligations.RegisterInstructionFrame : Prop :=
  ∀ (i : Instr) (s t : State), exec i s = .next t →
    (∀ (r imm8 : Byte), i = .ldi r imm8 → (∀ j : Fin 8, j.val ≠ r.toNat → t.reg j = s.reg j) ∧
      t.fl = s.fl ∧ t.output = s.output) ∧
    (∀ r : Byte, i = .prn r → (∀ j : Fin 8, t.reg j = s.reg j) ∧ t.fl = s.fl) ∧
    (∀ ra rb : Byte, i = .add ra rb ∨ i = .mul ra rb ∨ i = .sub ra rb ∨ i = .div ra rb →
      (∀ j : Fin 8, j.val ≠ ra.toNat → t.reg j = s.reg j) ∧ t.fl = s.fl ∧ t.output = s.output) ∧
    (∀ ra rb : Byte, i = .cmp ra rb → (∀ j : Fin 8, t.reg j = s.reg j) ∧ t.output = s.output) ∧
    ((∃ r imm8 : Byte, i = .ldi r imm8) ∨ (∃ r : Byte, i = .prn r) ∨
      (∃ ra rb : Byte, i = .add ra rb ∨ i = .mul ra rb ∨ i = .sub ra rb ∨ i = .div ra rb ∨ i = .cmp ra rb) →
      (∀ a : Nat, t.mem.read a = s.mem.read a) ∧
      ((t.rs = s.rs ∧ t.fault = s.fault) ∨ ∃ cause info, t = s.takeFault cause info))

/-- The frame of the storing instructions PUSH and CALL: no register but SP, no flag, no output. The one byte of memory
that changes is at SP - 1; when SP is 0, or the instruction faults, no byte does. -/
def Obligations.PushingInstructionFrame : Prop :=
  ∀ (s t : State), s.mem.wf → ∀ r : Byte, exec (.push r) s = .next t ∨ exec (.call r) s = .next t →
    (∀ j : Fin 8, j ≠ spIndex → t.reg j = s.reg j) ∧ t.fl = s.fl ∧ t.output = s.output ∧
    (∀ a : Nat, s.sp.toNat - 1 = a → ∀ b : Nat, b ≠ a → t.mem.read b = s.mem.read b) ∧
    (s.sp = 0#8 → ∀ b : Nat, t.mem.read b = s.mem.read b) ∧
    ((t.rs = s.rs ∧ t.fault = s.fault) ∨ ∃ cause info, t = s.takeFault cause info)

/-- The frame of POP and RET: no register but POP's destination and SP, no flag, no output, no byte of memory (the
popped cell keeps its value). -/
def Obligations.PoppingInstructionFrame : Prop :=
  ∀ (s t : State),
    (∀ r : Byte, exec (.pop r) s = .next t → ∀ j : Fin 8, j.val ≠ r.toNat → j ≠ spIndex → t.reg j = s.reg j) ∧
    (exec .ret s = .next t → ∀ j : Fin 8, j ≠ spIndex → t.reg j = s.reg j) ∧
    (exec .ret s = .next t ∨ (∃ r : Byte, exec (.pop r) s = .next t) →
      t.fl = s.fl ∧ t.output = s.output ∧ (∀ a : Nat, t.mem.read a = s.mem.read a) ∧
      ((t.rs = s.rs ∧ t.fault = s.fault) ∨ ∃ cause info, t = s.takeFault cause info))

/-- The frame of HLT and of the jumps JMP, JEQ and JNE: no register, no flag (JEQ and JNE only read it), no output and
no byte of memory changes; HLT leaves `pc` alone, and the jumps leave the run state and the record alone unless they
fault. -/
def Obligations.JumpAndHaltFrame : Prop :=
  ∀ (s t : State),
    (exec .hlt s = .next t → t.pc = s.pc ∧ t.fault = s.fault) ∧
    (∀ r : Byte, exec (.jmp r) s = .next t ∨ exec (.jeq r) s = .next t ∨ exec (.jne r) s = .next t →
      (t.rs = s.rs ∧ t.fault = s.fault) ∨ ∃ cause info, t = s.takeFault cause info) ∧
    (∀ r : Byte, exec .hlt s = .next t ∨ exec (.jmp r) s = .next t ∨ exec (.jeq r) s = .next t ∨
        exec (.jne r) s = .next t →
      (∀ j : Fin 8, t.reg j = s.reg j) ∧ t.fl = s.fl ∧ t.output = s.output ∧
      ∀ a : Nat, t.mem.read a = s.mem.read a)

/-! ### Rules of the whole machine -/

/-- FL changes only at reset, which is no step, and by CMP (R192): a step of any other instruction, or one that faults
or halts, keeps it. -/
def Obligations.FlagChangesOnlyByCmp : Prop :=
  ∀ (c : Config) (s t : State), stepWith c s = .next t → t.fl ≠ s.fl →
    t.rs = .running ∧ ∃ (ra rb : Byte) (rest : List Byte), decode c s.codeBytes = .ok (.cmp ra rb, rest)

/-- The output trace grows only by PRN, by exactly the event of the step (R34, R112). -/
def Obligations.OutputGrowsOnlyByPrn : Prop :=
  ∀ (c : Config) (s t : State), stepWith c s = .next t →
    t.output = s.output ++ (outputEvent c s).toList ∧
    (outputEvent c s ≠ none → ∃ (r : Byte) (hr : r.toNat < 8) (rest : List Byte),
      decode c s.codeBytes = .ok (.prn r, rest) ∧ outputEvent c s = some (s.reg ⟨r.toNat, hr⟩))

/-- HALTED is entered by HLT and by nothing else (R27, R101). -/
def Obligations.HaltedOnlyByHlt : Prop :=
  ∀ (c : Config) (s t : State), stepWith c s = .next t →
    (t.rs = .halted ↔ ∃ rest, decode c s.codeBytes = .ok (.hlt, rest))

/-- A step changes memory only by PUSH or CALL, and only the byte at the SP it leaves (R50). -/
def Obligations.MemoryChangesOnlyByPushAndCall : Prop :=
  ∀ (c : Config) (s t : State) (a : Nat), s.mem.wf → stepWith c s = .next t → t.mem.read a ≠ s.mem.read a →
    a = t.sp.toNat ∧ a + 1 = s.sp.toNat ∧
    ∃ (r : Byte) (rest : List Byte),
      decode c s.codeBytes = .ok (.push r, rest) ∨ decode c s.codeBytes = .ok (.call r, rest)

/-- The default advance (R96): an instruction other than HLT, CALL, RET, JMP, JEQ and JNE that does not fault leaves
`pc` at `p + w`, computed without wrap. -/
def Obligations.DefaultAdvance : Prop :=
  ∀ (c : Config) (s t : State) (i : Instr) (rest : List Byte), stepWith c s = .next t →
    decode c s.codeBytes = .ok (i, rest) → i.setsPcItself = false →
    (t.rs ≠ .faulted → t.pc.toNat = s.pc.toNat + i.width) ∧ (t.rs = .faulted → t.pc = s.pc)

/-- How each instruction changes `pc` (R24, whose rows for HLT, SUB and DIV are the spec's decisions D16 and D17): a
step that does not fault leaves the `pc` of the table, up to 256. For CALL R7 the register is read after SP has moved,
so `pc` is the new SP (R151, the spec's decision D9). -/
def Obligations.PcFollowsTheTable : Prop :=
  ∀ (c : Config) (s t : State), stepWith c s = .next t → t.rs ≠ .faulted →
    ∃ (i : Instr) (rest : List Byte), decode c s.codeBytes = .ok (i, rest) ∧ t.pc.toNat = nextPc s i

/-- `pc` = 256 arises only from a sequential advance past the last cell, never from a jump target (R23, the spec's
decision D4). -/
def Obligations.PcPastMemoryOnlyByAdvance : Prop :=
  ∀ (c : Config) (s t : State), stepWith c s = .next t → 256 ≤ t.pc.toNat → s.pc.toNat < 256 →
    ∃ (i : Instr) (rest : List Byte), decode c s.codeBytes = .ok (i, rest) ∧ t.pc.toNat = 256 ∧
      s.pc.toNat + i.width = 256 ∧ (∀ r : Byte, i ≠ .jmp r ∧ i ≠ .call r) ∧ i ≠ .ret ∧ i ≠ .hlt

/-- A program can read neither the output trace nor the fault record (R29): a step is the same, whatever stood in them,
but for keeping them. -/
def Obligations.OutputAndFaultRecordAreNeverRead : Prop :=
  ∀ (c : Config) (s t : State) (before : List Byte) (record : FaultRecord), stepWith c s = .next t →
    stepWith c { s with output := before ++ s.output, fault := record } =
      .next { t with output := before ++ t.output, fault := if t.rs = .faulted then t.fault else record }

/-- A jump to its own address loops for ever: the state never changes, and no number of steps ends the run (R101). -/
def Obligations.JumpToItselfNeverEnds : Prop :=
  ∀ (c : Config) (s : State) (r : Byte) (hr : r.toNat < 8) (rest : List Byte), s.rs = .running →
    decode c s.codeBytes = .ok (.jmp r, rest) → (s.reg ⟨r.toNat, hr⟩).toNat = s.pc.toNat →
    stepWith c s = .next s ∧ ∀ fuel : Nat, runFuel c fuel s = .outOfFuel s

/-! ### The stack -/

/-- The round-trip law (R143, which the spec derives from R141 and R142): with SP at least 1, PUSH and then POP of the
same register restores every register, SP among them, and the only other change is the byte at the old SP - 1, which
keeps the pushed byte. With SP = 0 the PUSH faults. -/
def Obligations.PushPopRoundTrip : Prop :=
  ∀ (s : State) (r : Byte) (hr : r.toNat < 8), s.mem.wf →
    (1 ≤ s.sp.toNat → ∃ t u, exec (.push r) s = .next t ∧ exec (.pop r) t = .next u ∧
      u.regs = s.regs ∧ u.fl = s.fl ∧ u.rs = s.rs ∧ u.fault = s.fault ∧ u.output = s.output ∧
      (∀ a : Nat, a ≠ s.sp.toNat - 1 → u.mem.read a = s.mem.read a) ∧
      u.mem.read (s.sp.toNat - 1) = if r = 7#8 then s.sp - 1#8 else s.reg ⟨r.toNat, hr⟩) ∧
    (s.sp.toNat = 0 → ∃ t, exec (.push r) s = .next t ∧ t.rs = .faulted)

/-- The call/return law (R157, which the spec derives from R151 and R152): after a CALL that does not fault, a RET that
finds the pushed byte at the same SP goes to the instruction after the CALL and restores SP. -/
def Obligations.ReturnGoesAfterTheCall : Prop :=
  ∀ (s t u : State) (r : Byte), s.rs = .running → s.mem.wf → exec (.call r) s = .next t → t.rs ≠ .faulted →
    u.sp = t.sp → u.mem.read u.sp.toNat = t.mem.read t.sp.toNat →
    ∃ v, exec .ret u = .next v ∧ v.pc.toNat = s.pc.toNat + 2 ∧ v.sp = s.sp

/-! ### Memory, ports and reset -/

/-- `MemWrite` (R53): the byte at the address is replaced and no other, and every later read, an instruction fetch among
them, sees it (R64). -/
def Obligations.StoreIsSeenByReadsAndFetches : Prop :=
  ∀ (s : State) (a v : Byte), s.mem.wf →
    (s.store a v).load a = v ∧ (∀ b : Byte, b ≠ a → (s.store a v).load b = s.load b) ∧
    ∀ k : Nat, k < 3 → s.pc.toNat + k ≤ 255 → (s.store a v).codeBytes[k]? =
      some (if s.pc.toNat + k = a.toNat then v else s.mem.read (s.pc.toNat + k))

/-- Two memories in canonical form that read the same everywhere are the same data. -/
def Obligations.MemoryFormIsCanonical : Prop :=
  ∀ m n : Memory, m.wf → n.wf → (∀ a < 256, m.read a = n.read a) → m = n

/-- Running the accesses of the memory port on the old memory gives the new one: a step writes memory only through its
port (R33, R67, the spec's decision D2). -/
def Obligations.PortWritesAreTheMemoryChange : Prop :=
  ∀ (c : Config) (s t : State), stepWith c s = .next t → t.mem = applyAccesses (portTrace c s) s.mem

/-- The table of R67: a step that does not fault reads the instruction's bytes, then SP for POP and RET, and writes SP -
1 for PUSH and CALL; a faulting step writes nothing; and no access is beyond address 255 (R33). The port is the
spec's decision D2. -/
def Obligations.PortAccessesFollowTheTable : Prop :=
  ∀ (c : Config) (s t : State), stepWith c s = .next t →
    (∀ a ∈ readAddresses (portTrace c s) ++ writeAddresses (portTrace c s), a ≤ 255) ∧
    (t.rs = .faulted → writeAddresses (portTrace c s) = []) ∧
    (t.rs ≠ .faulted → ∃ (i : Instr) (rest : List Byte), decode c s.codeBytes = .ok (i, rest) ∧
      readAddresses (portTrace c s) = ((List.range i.width).map fun k => s.pc.toNat + k) ++
        (match i with
         | .pop _ | .ret => [s.sp.toNat]
         | _ => []) ∧
      writeAddresses (portTrace c s) =
        (match i with
         | .push _ | .call _ => [s.sp.toNat - 1]
         | _ => []))

/-- The reset transition (R190, R191), from every run state: `pc` 0, SP at SP_INIT, R0..R6 at REG_RESET, FL UNSET,
RUNNING, the fault record 0, and memory unchanged (the spec's decisions D6, D7, D21 and D22). -/
def Obligations.ResetSetsEverythingButMemory : Prop :=
  ∀ (c : Config) (s : State),
    let t := s.resetFrom c
    t.pc = 0#9 ∧ t.sp = c.spInit ∧ (∀ k : Fin 7, t.reg k.castSucc = c.regReset.get k) ∧ t.fl = .unset ∧
    t.rs = .running ∧ t.fault.code = 0#3 ∧ t.fault.pc = 0#9 ∧ t.fault.opcode = 0#8 ∧ t.fault.info = 0#9 ∧
    t.mem = s.mem

/-- The state of the fixed machine after reset, in the values the spec gives (R37): `pc` 0, FL UNSET, RUNNING, the fault
record 0, no output, every memory cell 0 (none is loaded: log 7), and SP at the default 0xF4 the spec's decision D5
picks (log 3). R0 to R6 are left out: the spec leaves them open. -/
def Obligations.ResetStateOfTheMachine : Prop :=
  State.reset.pc = 0#9 ∧ State.reset.sp = 0xF4#8 ∧ State.reset.fl = .unset ∧ State.reset.rs = .running ∧
  State.reset.fault = ⟨0, 0, 0, 0⟩ ∧ State.reset.output = [] ∧ ∀ a : Nat, State.reset.mem.read a = 0#8

/-- What the host's loader leaves (R196, R51): an image of at most 256 bytes lies from address 0, and every other cell
holds 0. -/
def Obligations.BootedMemoryIsTheImage : Prop :=
  ∀ (c : Config) (image : List Byte), image.length ≤ 256 →
    (State.boot c image).mem.wf ∧ ∀ a : Nat, (State.boot c image).mem.read a = image.getD a 0#8

/-- The status port (R35, the spec's decision D10): `halted` and `faulted` are those run states, the record is shown as
it is, and in a RUNNING state that meets the invariant everything on the port is 0. -/
def Obligations.StatusPortShowsTheRunState : Prop :=
  ∀ s : State, (s.status.halted = true ↔ s.rs = .halted) ∧ (s.status.faulted = true ↔ s.rs = .faulted) ∧
    s.status.faultCode = s.fault.code ∧ s.status.faultPc = s.fault.pc ∧ s.status.faultOpcode = s.fault.opcode ∧
    s.status.faultInfo = s.fault.info ∧
    ∀ c : Config, s.Inv c → s.rs = .running → s.status = ⟨false, false, 0, 0, 0, 0⟩

/-- The storage encoding of FL (R26, general knowledge and the spec's decision D8; log 14): one-hot L G E, and the four
values have four patterns. -/
def Obligations.FlagEncodingIsOneHot : Prop :=
  Flag.unset.bits = 0b000#3 ∧ Flag.equal.bits = 0b001#3 ∧ Flag.greaterThan.bits = 0b010#3 ∧
  Flag.lessThan.bits = 0b100#3 ∧ ∀ f g : Flag, f.bits = g.bits → f = g
end

