-- ==== Sys2Proof/Laws/Decode.lean ====
section
/-! SUPPORT. What the decoder's parts answer: the opcode lookup and the operand readers (R93, R95). -/

namespace Sys2Proof

theorem oneOperand_cons (make : Byte → Instr) (b1 : Byte) (rest : List Byte) :
    oneOperand make (b1 :: rest) = .ok (make b1, rest) := rfl

theorem twoOperands_cons (make : Byte → Byte → Instr) (b1 b2 : Byte) (rest : List Byte) :
    twoOperands make (b1 :: b2 :: rest) = .ok (make b1 b2, rest) := rfl

/-- The reader of one operand takes one byte. -/
theorem oneOperand_cases {make : Byte → Instr} {bytes : List Byte} {i : Instr} {rest : List Byte}
    (h : oneOperand make bytes = .ok (i, rest)) : ∃ b1, i = make b1 ∧ bytes = b1 :: rest := by
  cases bytes with
  | nil => cases h
  | cons b1 bytes =>
    cases h
    exact ⟨b1, rfl, rfl⟩

/-- The reader of two operands takes two bytes. -/
theorem twoOperands_cases {make : Byte → Byte → Instr} {bytes : List Byte} {i : Instr} {rest : List Byte}
    (h : twoOperands make bytes = .ok (i, rest)) : ∃ b1 b2, i = make b1 b2 ∧ bytes = b1 :: b2 :: rest := by
  match bytes, h with
  | b1 :: b2 :: _, h =>
    cases h
    exact ⟨b1, b2, rfl, rfl⟩

/-- An opcode decodes to an instruction the configuration has, with that byte. -/
theorem decodeOpcode_some {c : Config} {op : Byte} {m : Mnemonic} (h : decodeOpcode c op = some m) :
    m ∈ c.present ∧ c.opcodeMap.byte m = op :=
  ⟨List.mem_of_find?_eq_some h, by simpa using List.find?_some h⟩

theorem decode_cons (c : Config) (op : Byte) (rest : List Byte) :
    decode c (op :: rest) =
      match decodeOpcode c op with
      | none => .error (.unknownOpcode op)
      | some m => decodeOperands m rest := rfl

/-- Decoding an instruction found its opcode in the map and its operands after it. -/
theorem decode_ok_cases {c : Config} {bytes : List Byte} {i : Instr} {rest : List Byte}
    (h : decode c bytes = .ok (i, rest)) :
    ∃ op m tail, bytes = op :: tail ∧ decodeOpcode c op = some m ∧ decodeOperands m tail = .ok (i, rest) := by
  cases bytes with
  | nil => cases h
  | cons op tail =>
    rw [decode_cons] at h
    cases hm : decodeOpcode c op with
    | none => rw [hm] at h; cases h
    | some m => rw [hm] at h; exact ⟨op, m, tail, rfl, hm, h⟩

end Sys2Proof
end

