-- ==== Sys2Proof/Laws/Memory.lean ====
section
/-! SUPPORT. The laws of memory: what a read gives after a write (R52, R53), that every memory operation keeps the
canonical form, and what the bytes at an address are (R92). -/

namespace Sys2Proof.Machine

theorem read_nil (a : Nat) : Memory.read [] a = 0#8 := rfl

theorem read_cons (b : Nat) (w : Byte) (m : Memory) (a : Nat) :
    Memory.read ((b, w) :: m) a = if a = b then w else Memory.read m a := rfl

theorem write_nil (a : Nat) (v : Byte) : Memory.write [] a v = if v = 0#8 then [] else [(a, v)] := rfl

theorem write_cons_lt (w : Byte) (m : Memory) {a b : Nat} (v : Byte) (h : a < b) :
    Memory.write ((b, w) :: m) a v = if v = 0#8 then (b, w) :: m else (a, v) :: (b, w) :: m := if_pos h

theorem write_cons_same (w : Byte) (m : Memory) (a : Nat) (v : Byte) :
    Memory.write ((a, w) :: m) a v = if v = 0#8 then m else (a, v) :: m := by
  simp [Memory.write]

theorem write_cons_gt (w : Byte) (m : Memory) {a b : Nat} (v : Byte) (h : b < a) :
    Memory.write ((b, w) :: m) a v = (b, w) :: Memory.write m a v := by
  rw [Memory.write, if_neg (by omega), if_neg (by omega)]

/-- An address below every listed one holds 0 (R51). -/
theorem read_eq_zero_of_forall_lt {m : Memory} {a : Nat} (h : ∀ x ∈ m, a < x.1) : Memory.read m a = 0#8 := by
  induction m with
  | nil => rfl
  | cons x m ih =>
    obtain ⟨b, w⟩ := x
    have hb : a < b := h (b, w) (by simp)
    rw [read_cons, if_neg (by omega)]
    exact ih fun y hy => h y (by simp [hy])

/-- A read after a write to the same address gives the value written, and a write leaves every other address alone
(R52, R53). -/
theorem read_write {m : Memory} (hm : m.Pairwise fun x y => x.1 < y.1) (a : Nat) (v : Byte) (b : Nat) :
    Memory.read (Memory.write m a v) b = if b = a then v else Memory.read m b := by
  induction m with
  | nil =>
    rw [write_nil]
    by_cases hv : v = 0#8
    · rw [if_pos hv, read_nil, hv, ite_self]
    · rw [if_neg hv, read_cons]
  | cons x m ih =>
    obtain ⟨c, w⟩ := x
    obtain ⟨hc, hm⟩ := List.pairwise_cons.mp hm
    have below : ∀ d ≤ c, Memory.read m d = 0#8 := fun d hd =>
      read_eq_zero_of_forall_lt fun y hy => lt_of_le_of_lt hd (hc y hy)
    rcases lt_trichotomy a c with h | rfl | h
    · rw [write_cons_lt _ _ _ h]
      by_cases hv : v = 0#8
      · rw [if_pos hv]
        by_cases hb : b = a
        · rw [if_pos hb, read_cons, if_neg (by omega), below b (by omega), hv]
        · rw [if_neg hb]
      · rw [if_neg hv, read_cons]
    · rw [write_cons_same]
      by_cases hv : v = 0#8
      · rw [if_pos hv]
        by_cases hb : b = a
        · rw [if_pos hb, below b hb.le, hv]
        · rw [if_neg hb, read_cons, if_neg hb]
      · rw [if_neg hv, read_cons, read_cons]
        split_ifs <;> rfl
    · rw [write_cons_gt _ _ _ h, read_cons, read_cons, ih hm]
      by_cases hb : b = c
      · rw [if_pos hb, if_pos hb, if_neg (by omega)]
      · rw [if_neg hb, if_neg hb]

/-- Every cell of a written memory is the written one or an old one. -/
theorem mem_write {m : Memory} {a : Nat} {v : Byte} {x : Host.Cell} (h : x ∈ Memory.write m a v) :
    (x = (a, v) ∧ v ≠ 0#8) ∨ x ∈ m := by
  induction m with
  | nil =>
    by_cases hv : v = 0#8
    · simp [write_nil, hv] at h
    · exact .inl ⟨by simpa [write_nil, hv] using h, hv⟩
  | cons y m ih =>
    obtain ⟨c, w⟩ := y
    rcases lt_trichotomy a c with hlt | rfl | hgt
    · rw [write_cons_lt _ _ _ hlt] at h
      by_cases hv : v = 0#8
      · exact .inr (by simpa [hv] using h)
      · rw [if_neg hv] at h
        exact (List.mem_cons.mp h).imp (fun h => ⟨h, hv⟩) id
    · rw [write_cons_same] at h
      by_cases hv : v = 0#8
      · rw [if_pos hv] at h
        exact .inr (List.mem_cons_of_mem _ h)
      · rw [if_neg hv] at h
        exact (List.mem_cons.mp h).imp (fun h => ⟨h, hv⟩) (List.mem_cons_of_mem _)
    · rw [write_cons_gt _ _ _ hgt] at h
      rcases List.mem_cons.mp h with h | h
      · exact .inr (h ▸ List.mem_cons_self)
      · exact (ih h).imp id (List.mem_cons_of_mem _)

theorem write_sorted {m : Memory} (hm : m.Pairwise fun x y => x.1 < y.1) (a : Nat) (v : Byte) :
    (Memory.write m a v).Pairwise fun x y => x.1 < y.1 := by
  induction m with
  | nil =>
    rw [write_nil]
    split_ifs <;> simp
  | cons y m ih =>
    obtain ⟨c, w⟩ := y
    obtain ⟨hc, hm'⟩ := List.pairwise_cons.mp hm
    rcases lt_trichotomy a c with hlt | rfl | hgt
    · rw [write_cons_lt _ _ _ hlt]
      split_ifs
      · exact hm
      · refine List.pairwise_cons.mpr ⟨fun x hx => ?_, hm⟩
        rcases List.mem_cons.mp hx with hx | hx
        · simpa [hx] using hlt
        · exact hlt.trans (hc x hx)
    · rw [write_cons_same]
      split_ifs
      · exact hm'
      · exact List.pairwise_cons.mpr ⟨hc, hm'⟩
    · rw [write_cons_gt _ _ _ hgt]
      refine List.pairwise_cons.mpr ⟨fun x hx => ?_, ih hm'⟩
      rcases mem_write hx with ⟨rfl, -⟩ | hx
      · exact hgt
      · exact hc x hx

/-- A write inside memory keeps the canonical form. -/
theorem write_wf {m : Memory} (hm : m.wf) {a : Nat} (ha : a < 256) (v : Byte) : (m.write a v).wf := by
  refine ⟨write_sorted hm.1 a v, fun x hx => ?_⟩
  rcases mem_write hx with ⟨rfl, hv⟩ | hx
  · exact ⟨ha, hv⟩
  · exact hm.2 x hx

/-- Writing bytes keeps the canonical form; bytes beyond memory are left out. -/
theorem writeBytes_wf {m : Memory} (hm : m.wf) (a : Nat) (vs : List Byte) : (m.writeBytes a vs).wf := by
  induction vs generalizing m a with
  | nil => exact hm
  | cons v vs ih =>
    simp only [Memory.writeBytes]
    split_ifs with ha
    · exact ih (write_wf hm ha v) _
    · exact ih hm _

theorem nil_wf : Memory.wf [] := ⟨List.Pairwise.nil, by simp⟩

/-- The bytes from an address on are the bytes of memory, as far as memory goes (R92). -/
theorem getElem?_bytesFrom (m : Memory) (a n k : Nat) :
    (bytesFrom m a n)[k]? = if k < n ∧ a + k < 256 then some (m.read (a + k)) else none := by
  induction n generalizing a k with
  | zero => simp [bytesFrom]
  | succ n ih =>
    simp only [bytesFrom]
    split_ifs with ha h h
    · cases k with
      | zero => simp
      | succ k =>
        rw [List.getElem?_cons_succ, ih, if_pos ⟨by omega, by omega⟩]
        congr 2
        omega
    · cases k with
      | zero => exact absurd ⟨by omega, by simpa using ha⟩ h
      | succ k =>
        rw [List.getElem?_cons_succ, ih, if_neg]
        omega
    · omega
    · rfl

/-- There are `n` bytes, or all those up to the end of memory. -/
theorem length_bytesFrom (m : Memory) (a n : Nat) : (bytesFrom m a n).length = min n (256 - a) := by
  induction n generalizing a with
  | zero => simp [bytesFrom]
  | succ n ih =>
    simp only [bytesFrom]
    split_ifs with ha
    · rw [List.length_cons, ih]
      omega
    · simp
      omega

end Sys2Proof.Machine
end

