-- ==== Sys2Proof/Laws/State.lean ====
section
/-! SUPPORT. One lemma for each field of the state under each update, so that no proof unfolds a record update, and
the reading of a register after each. -/

namespace Sys2Proof.Machine

@[simp] theorem setReg_regs (s : State) (i : Fin 8) (v : Byte) : (s.setReg i v).regs = s.regs.set i.val v i.isLt := rfl
@[simp] theorem setReg_pc (s : State) (i : Fin 8) (v : Byte) : (s.setReg i v).pc = s.pc := rfl
@[simp] theorem setReg_fl (s : State) (i : Fin 8) (v : Byte) : (s.setReg i v).fl = s.fl := rfl
@[simp] theorem setReg_rs (s : State) (i : Fin 8) (v : Byte) : (s.setReg i v).rs = s.rs := rfl
@[simp] theorem setReg_fault (s : State) (i : Fin 8) (v : Byte) : (s.setReg i v).fault = s.fault := rfl
@[simp] theorem setReg_mem (s : State) (i : Fin 8) (v : Byte) : (s.setReg i v).mem = s.mem := rfl
@[simp] theorem setReg_output (s : State) (i : Fin 8) (v : Byte) : (s.setReg i v).output = s.output := rfl

@[simp] theorem setSp_regs (s : State) (v : Byte) : (s.setSp v).regs = s.regs.set spIndex.val v spIndex.isLt := rfl
@[simp] theorem setSp_pc (s : State) (v : Byte) : (s.setSp v).pc = s.pc := rfl
@[simp] theorem setSp_fl (s : State) (v : Byte) : (s.setSp v).fl = s.fl := rfl
@[simp] theorem setSp_rs (s : State) (v : Byte) : (s.setSp v).rs = s.rs := rfl
@[simp] theorem setSp_fault (s : State) (v : Byte) : (s.setSp v).fault = s.fault := rfl
@[simp] theorem setSp_mem (s : State) (v : Byte) : (s.setSp v).mem = s.mem := rfl
@[simp] theorem setSp_output (s : State) (v : Byte) : (s.setSp v).output = s.output := rfl

@[simp] theorem jumpTo_regs (s : State) (v : Byte) : (s.jumpTo v).regs = s.regs := rfl
@[simp] theorem jumpTo_pc (s : State) (v : Byte) : (s.jumpTo v).pc = v.setWidth 9 := rfl
@[simp] theorem jumpTo_fl (s : State) (v : Byte) : (s.jumpTo v).fl = s.fl := rfl
@[simp] theorem jumpTo_rs (s : State) (v : Byte) : (s.jumpTo v).rs = s.rs := rfl
@[simp] theorem jumpTo_fault (s : State) (v : Byte) : (s.jumpTo v).fault = s.fault := rfl
@[simp] theorem jumpTo_mem (s : State) (v : Byte) : (s.jumpTo v).mem = s.mem := rfl
@[simp] theorem jumpTo_output (s : State) (v : Byte) : (s.jumpTo v).output = s.output := rfl

@[simp] theorem advance_regs (s : State) (w : Nat) : (s.advance w).regs = s.regs := rfl
@[simp] theorem advance_pc (s : State) (w : Nat) : (s.advance w).pc = s.pc + BitVec.ofNat 9 w := rfl
@[simp] theorem advance_fl (s : State) (w : Nat) : (s.advance w).fl = s.fl := rfl
@[simp] theorem advance_rs (s : State) (w : Nat) : (s.advance w).rs = s.rs := rfl
@[simp] theorem advance_fault (s : State) (w : Nat) : (s.advance w).fault = s.fault := rfl
@[simp] theorem advance_mem (s : State) (w : Nat) : (s.advance w).mem = s.mem := rfl
@[simp] theorem advance_output (s : State) (w : Nat) : (s.advance w).output = s.output := rfl

@[simp] theorem setFl_regs (s : State) (f : Flag) : (s.setFl f).regs = s.regs := rfl
@[simp] theorem setFl_pc (s : State) (f : Flag) : (s.setFl f).pc = s.pc := rfl
@[simp] theorem setFl_fl (s : State) (f : Flag) : (s.setFl f).fl = f := rfl
@[simp] theorem setFl_rs (s : State) (f : Flag) : (s.setFl f).rs = s.rs := rfl
@[simp] theorem setFl_fault (s : State) (f : Flag) : (s.setFl f).fault = s.fault := rfl
@[simp] theorem setFl_mem (s : State) (f : Flag) : (s.setFl f).mem = s.mem := rfl
@[simp] theorem setFl_output (s : State) (f : Flag) : (s.setFl f).output = s.output := rfl

@[simp] theorem emit_regs (s : State) (v : Byte) : (s.emit v).regs = s.regs := rfl
@[simp] theorem emit_pc (s : State) (v : Byte) : (s.emit v).pc = s.pc := rfl
@[simp] theorem emit_fl (s : State) (v : Byte) : (s.emit v).fl = s.fl := rfl
@[simp] theorem emit_rs (s : State) (v : Byte) : (s.emit v).rs = s.rs := rfl
@[simp] theorem emit_fault (s : State) (v : Byte) : (s.emit v).fault = s.fault := rfl
@[simp] theorem emit_mem (s : State) (v : Byte) : (s.emit v).mem = s.mem := rfl
@[simp] theorem emit_output (s : State) (v : Byte) : (s.emit v).output = s.output ++ [v] := rfl

@[simp] theorem halt_regs (s : State) : (s.halt).regs = s.regs := rfl
@[simp] theorem halt_pc (s : State) : (s.halt).pc = s.pc := rfl
@[simp] theorem halt_fl (s : State) : (s.halt).fl = s.fl := rfl
@[simp] theorem halt_rs (s : State) : (s.halt).rs = .halted := rfl
@[simp] theorem halt_fault (s : State) : (s.halt).fault = s.fault := rfl
@[simp] theorem halt_mem (s : State) : (s.halt).mem = s.mem := rfl
@[simp] theorem halt_output (s : State) : (s.halt).output = s.output := rfl

@[simp] theorem store_regs (s : State) (a v : Byte) : (s.store a v).regs = s.regs := rfl
@[simp] theorem store_pc (s : State) (a v : Byte) : (s.store a v).pc = s.pc := rfl
@[simp] theorem store_fl (s : State) (a v : Byte) : (s.store a v).fl = s.fl := rfl
@[simp] theorem store_rs (s : State) (a v : Byte) : (s.store a v).rs = s.rs := rfl
@[simp] theorem store_fault (s : State) (a v : Byte) : (s.store a v).fault = s.fault := rfl
@[simp] theorem store_mem (s : State) (a v : Byte) : (s.store a v).mem = s.mem.write a.toNat v := rfl
@[simp] theorem store_output (s : State) (a v : Byte) : (s.store a v).output = s.output := rfl

@[simp] theorem takeFault_regs (s : State) (cause : Cause) (info : Word9) : (s.takeFault cause info).regs = s.regs := rfl
@[simp] theorem takeFault_pc (s : State) (cause : Cause) (info : Word9) : (s.takeFault cause info).pc = s.pc := rfl
@[simp] theorem takeFault_fl (s : State) (cause : Cause) (info : Word9) : (s.takeFault cause info).fl = s.fl := rfl
@[simp] theorem takeFault_rs (s : State) (cause : Cause) (info : Word9) : (s.takeFault cause info).rs = .faulted := rfl
@[simp] theorem takeFault_fault (s : State) (cause : Cause) (info : Word9) : (s.takeFault cause info).fault = ⟨cause.code, s.pc, s.opcodeAtPc, info⟩ := rfl
@[simp] theorem takeFault_mem (s : State) (cause : Cause) (info : Word9) : (s.takeFault cause info).mem = s.mem := rfl
@[simp] theorem takeFault_output (s : State) (cause : Cause) (info : Word9) : (s.takeFault cause info).output = s.output := rfl

@[simp] theorem placeAtPc_regs (s : State) (bytes : List Byte) : (s.placeAtPc bytes).regs = s.regs := rfl
@[simp] theorem placeAtPc_pc (s : State) (bytes : List Byte) : (s.placeAtPc bytes).pc = s.pc := rfl
@[simp] theorem placeAtPc_fl (s : State) (bytes : List Byte) : (s.placeAtPc bytes).fl = s.fl := rfl
@[simp] theorem placeAtPc_rs (s : State) (bytes : List Byte) : (s.placeAtPc bytes).rs = s.rs := rfl
@[simp] theorem placeAtPc_fault (s : State) (bytes : List Byte) : (s.placeAtPc bytes).fault = s.fault := rfl
@[simp] theorem placeAtPc_mem (s : State) (bytes : List Byte) : (s.placeAtPc bytes).mem = s.mem.writeBytes s.pc.toNat bytes := rfl
@[simp] theorem placeAtPc_output (s : State) (bytes : List Byte) : (s.placeAtPc bytes).output = s.output := rfl

@[simp] theorem resetFrom_regs (s : State) (c : Config) : (s.resetFrom c).regs = c.regReset.push c.spInit := rfl
@[simp] theorem resetFrom_pc (s : State) (c : Config) : (s.resetFrom c).pc = 0 := rfl
@[simp] theorem resetFrom_fl (s : State) (c : Config) : (s.resetFrom c).fl = .unset := rfl
@[simp] theorem resetFrom_rs (s : State) (c : Config) : (s.resetFrom c).rs = .running := rfl
@[simp] theorem resetFrom_fault (s : State) (c : Config) : (s.resetFrom c).fault = FaultRecord.clear := rfl
@[simp] theorem resetFrom_mem (s : State) (c : Config) : (s.resetFrom c).mem = s.mem := rfl
@[simp] theorem resetFrom_output (s : State) (c : Config) : (s.resetFrom c).output = [] := rfl

/-- Reading a register after writing one. -/
theorem reg_setReg (s : State) (i j : Fin 8) (v : Byte) :
    (s.setReg i v).reg j = if i = j then v else s.reg j := by
  simp only [State.reg, State.setReg, Vector.get_eq_getElem, Vector.getElem_set, Fin.ext_iff]

@[simp] theorem reg_setReg_same (s : State) (i : Fin 8) (v : Byte) : (s.setReg i v).reg i = v := by
  simp [reg_setReg]

theorem reg_setReg_other (s : State) {i j : Fin 8} (v : Byte) (h : j ≠ i) : (s.setReg i v).reg j = s.reg j := by
  simp [reg_setReg, h.symm]

@[simp] theorem reg_jumpTo (s : State) (v : Byte) (i : Fin 8) : (s.jumpTo v).reg i = s.reg i := rfl
@[simp] theorem sp_jumpTo (s : State) (v : Byte): (s.jumpTo v).sp = s.sp := rfl
@[simp] theorem reg_advance (s : State) (w : Nat) (i : Fin 8) : (s.advance w).reg i = s.reg i := rfl
@[simp] theorem sp_advance (s : State) (w : Nat): (s.advance w).sp = s.sp := rfl
@[simp] theorem reg_setFl (s : State) (f : Flag) (i : Fin 8) : (s.setFl f).reg i = s.reg i := rfl
@[simp] theorem sp_setFl (s : State) (f : Flag): (s.setFl f).sp = s.sp := rfl
@[simp] theorem reg_emit (s : State) (v : Byte) (i : Fin 8) : (s.emit v).reg i = s.reg i := rfl
@[simp] theorem sp_emit (s : State) (v : Byte): (s.emit v).sp = s.sp := rfl
@[simp] theorem reg_halt (s : State) (i : Fin 8) : (s.halt).reg i = s.reg i := rfl
@[simp] theorem sp_halt (s : State) : (s.halt).sp = s.sp := rfl
@[simp] theorem reg_store (s : State) (a v : Byte) (i : Fin 8) : (s.store a v).reg i = s.reg i := rfl
@[simp] theorem sp_store (s : State) (a v : Byte): (s.store a v).sp = s.sp := rfl
@[simp] theorem reg_takeFault (s : State) (cause : Cause) (info : Word9) (i : Fin 8) : (s.takeFault cause info).reg i = s.reg i := rfl
@[simp] theorem sp_takeFault (s : State) (cause : Cause) (info : Word9): (s.takeFault cause info).sp = s.sp := rfl
@[simp] theorem reg_placeAtPc (s : State) (bytes : List Byte) (i : Fin 8) : (s.placeAtPc bytes).reg i = s.reg i := rfl
@[simp] theorem sp_placeAtPc (s : State) (bytes : List Byte): (s.placeAtPc bytes).sp = s.sp := rfl

@[simp] theorem sp_setSp (s : State) (v : Byte) : (s.setSp v).sp = v := reg_setReg_same s spIndex v

@[simp] theorem reg_spIndex (s : State) : s.reg spIndex = s.sp := rfl

theorem sp_setReg (s : State) (i : Fin 8) (v : Byte) :
    (s.setReg i v).sp = if i = spIndex then v else s.sp := reg_setReg s i spIndex v

theorem reg_setSp (s : State) (v : Byte) (j : Fin 8) : (s.setSp v).reg j = if j = spIndex then v else s.reg j := by
  simp only [State.setSp, reg_setReg, eq_comm]

/-- Two states with the same fields are the same state. -/
theorem state_eq {s t : State} (hr : s.regs = t.regs) (hp : s.pc = t.pc) (hf : s.fl = t.fl) (hs : s.rs = t.rs)
    (hx : s.fault = t.fault) (hm : s.mem = t.mem) (ho : s.output = t.output) : s = t := by
  cases s; cases t; simp_all

/-- Register files that agree on every register are the same. -/
theorem regs_eq {s t : State} (h : ∀ i, s.reg i = t.reg i) : s.regs = t.regs := by
  apply Vector.ext
  intro i hi
  simpa [State.reg, Vector.get_eq_getElem] using h ⟨i, hi⟩

end Sys2Proof.Machine
end

