-- ==== Sys2Proof/Laws/Ops.lean ====
section
/-! SUPPORT. One lemma for each shared operation that says what it can do: the checks either go on or raise the fault
the spec names (R94, R140, R151), and the ALU writer's answers (R120). -/

namespace Sys2Proof.Machine

theorem withReg_ok (s : State) {b : Byte} (h : b.toNat < 8) (k : Fin 8 → Result) :
    withReg s b k = k ⟨b.toNat, h⟩ := dif_pos h

theorem withReg_fault (s : State) {b : Byte} (h : 8 ≤ b.toNat) (k : Fin 8 → Result) :
    withReg s b k = .next (s.takeFault .addressOutOfRange (b.setWidth 9)) := dif_neg (by omega)

/-- The register check goes on with the register the byte names, or raises its fault. -/
theorem withReg_cases {s : State} {b : Byte} {k : Fin 8 → Result} {t : State} (h : withReg s b k = .next t) :
    (∃ hb : b.toNat < 8, k ⟨b.toNat, hb⟩ = .next t) ∨
      (8 ≤ b.toNat ∧ t = s.takeFault .addressOutOfRange (b.setWidth 9)) := by
  by_cases hb : b.toNat < 8
  · exact .inl ⟨hb, withReg_ok s hb k ▸ h⟩
  · rw [withReg_fault s (by omega)] at h
    exact .inr ⟨by omega, (Host.Outcome.next.inj h).symm⟩

theorem withRegs_ok (s : State) {ra rb : Byte} (ha : ra.toNat < 8) (hb : rb.toNat < 8)
    (k : Fin 8 → Fin 8 → Result) : withRegs s ra rb k = k ⟨ra.toNat, ha⟩ ⟨rb.toNat, hb⟩ := by
  rw [withRegs, withReg_ok s ha, withReg_ok s hb]

theorem withPushCheck_ok (s : State) (h : s.sp.toNat ≠ 0) (k : Byte → Result) :
    withPushCheck s k = k (narrow (s.sp.toNat - 1)) := if_neg h

theorem withPushCheck_fault (s : State) (h : s.sp.toNat = 0) (k : Byte → Result) :
    withPushCheck s k = .next (s.takeFault .addressOutOfRange 0x1FF#9) := if_pos h

/-- The push check goes on with SP - 1, or raises its fault at SP = 0 (R140). -/
theorem withPushCheck_cases {s : State} {k : Byte → Result} {t : State} (h : withPushCheck s k = .next t) :
    (s.sp.toNat ≠ 0 ∧ k (narrow (s.sp.toNat - 1)) = .next t) ∨
      (s.sp.toNat = 0 ∧ t = s.takeFault .addressOutOfRange 0x1FF#9) := by
  by_cases hs : s.sp.toNat = 0
  · rw [withPushCheck_fault s hs] at h
    exact .inr ⟨hs, (Host.Outcome.next.inj h).symm⟩
  · exact .inl ⟨hs, withPushCheck_ok s hs k ▸ h⟩

theorem withPopCheck_ok (s : State) {n : Nat} (h : n ≤ 255) (k : Byte → Result) :
    withPopCheck s n k = k (narrow n) := if_neg (by omega)

theorem withPopCheck_fault (s : State) {n : Nat} (h : 255 < n) (k : Byte → Result) :
    withPopCheck s n k = .next (s.takeFault .addressOutOfRange (BitVec.ofNat 9 n)) := if_pos h

/-- The pop check goes on with the new SP, or raises its fault (R140). -/
theorem withPopCheck_cases {s : State} {n : Nat} {k : Byte → Result} {t : State}
    (h : withPopCheck s n k = .next t) :
    (n ≤ 255 ∧ k (narrow n) = .next t) ∨
      (255 < n ∧ t = s.takeFault .addressOutOfRange (BitVec.ofNat 9 n)) := by
  by_cases hn : n ≤ 255
  · exact .inl ⟨hn, withPopCheck_ok s hn k ▸ h⟩
  · rw [withPopCheck_fault s (by omega)] at h
    exact .inr ⟨by omega, (Host.Outcome.next.inj h).symm⟩

theorem withReturnAddress_ok (s : State) (h : s.pc.toNat + 2 ≤ 255) (k : Byte → Result) :
    withReturnAddress s k = k (narrow (s.pc.toNat + 2)) := if_neg (by omega)

theorem withReturnAddress_fault (s : State) (h : 255 < s.pc.toNat + 2) (k : Byte → Result) :
    withReturnAddress s k = .next (s.takeFault .addressOutOfRange (BitVec.ofNat 9 (s.pc.toNat + 2))) := if_pos h

/-- CALL's check goes on with the return address, or raises its fault (R151). -/
theorem withReturnAddress_cases {s : State} {k : Byte → Result} {t : State}
    (h : withReturnAddress s k = .next t) :
    (s.pc.toNat + 2 ≤ 255 ∧ k (narrow (s.pc.toNat + 2)) = .next t) ∨
      (255 < s.pc.toNat + 2 ∧ t = s.takeFault .addressOutOfRange (BitVec.ofNat 9 (s.pc.toNat + 2))) := by
  by_cases hn : s.pc.toNat + 2 ≤ 255
  · exact .inl ⟨hn, withReturnAddress_ok s hn k ▸ h⟩
  · rw [withReturnAddress_fault s (by omega)] at h
    exact .inr ⟨by omega, (Host.Outcome.next.inj h).symm⟩

/-- What the ALU's writer answers (R120, R127, R177). -/
theorem writeAluResult_cases {s : State} {op : BitVec 4} {a b : Fin 8} {r : AluResult} {t : State}
    (h : writeAluResult s op a b r = .next t) :
    (∃ v, r = .value v ∧ t = (s.setReg a v).advance 3) ∨
      (∃ f, r = .flag f ∧ t = (s.setFl f).advance 3) ∨
      (r = .fault .unsupportedOperation ∧ t = s.takeFault .unsupportedAluOperation (op.setWidth 9)) ∨
      (r = .fault .divideByZero ∧ t = s.takeFault .divideByZero (BitVec.ofNat 9 b.val)) := by
  cases r with
  | value v => exact .inl ⟨v, rfl, (Host.Outcome.next.inj h).symm⟩
  | flag f => exact .inr (.inl ⟨f, rfl, (Host.Outcome.next.inj h).symm⟩)
  | fault e =>
    cases e with
    | unsupportedOperation => exact .inr (.inr (.inl ⟨rfl, (Host.Outcome.next.inj h).symm⟩))
    | divideByZero => exact .inr (.inr (.inr ⟨rfl, (Host.Outcome.next.inj h).symm⟩))

/-- The ALU answers a value, a flag or a zero divisor for the selectors that instructions drive (R121, R127). -/
theorem alu_add (a b : Byte) : alu aluAdd a b = .value (narrow (a.toNat + b.toNat)) := rfl

theorem alu_sub (a b : Byte) : alu aluSub a b = .value (BitVec.ofInt 8 ((a.toNat : Int) - b.toNat)) := rfl

theorem alu_mul (a b : Byte) : alu aluMul a b = .value (narrow (a.toNat * b.toNat)) := rfl

theorem alu_div (a b : Byte) :
    alu aluDiv a b = if b.toNat = 0 then .fault .divideByZero else .value (narrow (a.toNat / b.toNat)) := rfl

theorem alu_cmp (a b : Byte) : alu aluCmp a b = .flag (compareFlag a b) := rfl

/-- The condition of JEQ is that FL is EQUAL (R154). -/
theorem isEqual_iff (f : Flag) : f.isEqual = true ↔ f = .equal := by
  cases f <;> decide

@[simp] theorem narrow_toNat (n : Nat) : (narrow n).toNat = n % 256 := BitVec.toNat_ofNat n 8

@[simp] theorem narrow_toNat_self (v : Byte) : narrow v.toNat = v := by simp [narrow]

end Sys2Proof.Machine
end

