-- ==== Sys2Proof/Laws/Step.lean ====
section
/-! SUPPORT. What a step can do: it raises the fault of a failed fetch or decode, or it is the decoded instruction's
meaning (R90, R91); and what the meaning of each instruction can do. -/

namespace Sys2Proof.Machine

/-- A step that answers a next state started in RUNNING, and either took the fault of a failed fetch or decode, or ran
the decoded instruction. -/
theorem stepWith_cases {c : Config} {s t : State} (h : stepWith c s = .next t) :
    s.rs = .running ∧
      ((∃ e, decode c s.codeBytes = .error e ∧ raiseDecodeError s e = .next t) ∨
        (∃ i rest, decode c s.codeBytes = .ok (i, rest) ∧ exec i s = .next t)) := by
  unfold stepWith at h
  cases hr : s.rs with
  | halted => simp [hr] at h
  | faulted => simp [hr] at h
  | running =>
    refine ⟨rfl, ?_⟩
    simp only [hr] at h
    cases hd : decode c s.codeBytes with
    | error e => rw [hd] at h; exact .inl ⟨e, rfl, h⟩
    | ok r => rw [hd] at h; exact .inr ⟨r.1, r.2, rfl, h⟩

/-- The fault of a failed fetch or decode. -/
theorem raiseDecodeError_cases {s t : State} {e : DecodeError} (h : raiseDecodeError s e = .next t) :
    (∃ k, e = .missingByte k ∧ t = s.takeFault .addressOutOfRange (BitVec.ofNat 9 (s.pc.toNat + k))) ∨
      (∃ op, e = .unknownOpcode op ∧ t = s.takeFault .unknownOpcode (op.setWidth 9)) := by
  cases e with
  | missingByte k => exact .inl ⟨k, rfl, (Host.Outcome.next.inj h).symm⟩
  | unknownOpcode op => exact .inr ⟨op, rfl, (Host.Outcome.next.inj h).symm⟩

/-- What an instruction of format RR can do: raise a register fault, or write what the ALU returned. -/
theorem execAlu_cases {op : BitVec 4} {ra rb : Byte} {s t : State} (h : execAlu op ra rb s = .next t) :
    (∃ b : Byte, 8 ≤ b.toNat ∧ t = s.takeFault .addressOutOfRange (b.setWidth 9)) ∨
      (∃ (ha : ra.toNat < 8) (hb : rb.toNat < 8),
        writeAluResult s op ⟨ra.toNat, ha⟩ ⟨rb.toNat, hb⟩
          (alu op (s.reg ⟨ra.toNat, ha⟩) (s.reg ⟨rb.toNat, hb⟩)) = .next t) := by
  rw [execAlu, withRegs] at h
  rcases withReg_cases h with ⟨ha, h⟩ | ⟨ha, rfl⟩
  · rcases withReg_cases h with ⟨hb, h⟩ | ⟨hb, rfl⟩
    · exact .inr ⟨ha, hb, h⟩
    · exact .inl ⟨rb, hb, rfl⟩
  · exact .inl ⟨ra, ha, rfl⟩

theorem stepWith_running {c : Config} {s : State} (h : s.rs = .running) :
    stepWith c s =
      match decode c s.codeBytes with
      | .error e => raiseDecodeError s e
      | .ok (i, _) => exec i s := by
  cases hd : decode c s.codeBytes <;> simp only [stepWith, h, hd]

end Sys2Proof.Machine
end

