-- ==== Sys2Proof/Laws/Exec.lean ====
section
/-! SUPPORT. What the meaning of each instruction can do, said once: its own effect, or one of the faults its rule
names. Proofs about a step cite these and unfold no meaning. -/

namespace Sys2Proof.Machine

/-! ### Each arm over the shared operations -/

theorem exec_hlt (s : State) : exec .hlt s = .next s.halt := rfl

theorem exec_ldi (r imm8 : Byte) (s : State) :
    exec (.ldi r imm8) s = withReg s r fun i => .next ((s.setReg i imm8).advance 3) := rfl

theorem exec_prn (r : Byte) (s : State) :
    exec (.prn r) s = withReg s r fun i => .next ((s.emit (s.reg i)).advance 2) := rfl

theorem exec_add (ra rb : Byte) (s : State) : exec (.add ra rb) s = execAlu aluAdd ra rb s := rfl

theorem exec_mul (ra rb : Byte) (s : State) : exec (.mul ra rb) s = execAlu aluMul ra rb s := rfl

theorem exec_cmp (ra rb : Byte) (s : State) : exec (.cmp ra rb) s = execAlu aluCmp ra rb s := rfl

theorem exec_sub (ra rb : Byte) (s : State) : exec (.sub ra rb) s = execAlu aluSub ra rb s := rfl

theorem exec_div (ra rb : Byte) (s : State) : exec (.div ra rb) s = execAlu aluDiv ra rb s := rfl

theorem exec_push (r : Byte) (s : State) :
    exec (.push r) s = withReg s r fun i =>
      withPushCheck s fun a => .next ((s.pushByte a fun t => t.reg i).advance 2) := rfl

theorem exec_pop (r : Byte) (s : State) :
    exec (.pop r) s = withReg s r fun i =>
      withPopCheck s ((s.setReg i (s.load s.sp)).sp.toNat + 1) fun n =>
        .next (((s.setReg i (s.load s.sp)).setSp n).advance 2) := rfl

theorem exec_call (r : Byte) (s : State) :
    exec (.call r) s = withReg s r fun i =>
      withReturnAddress s fun ret =>
        withPushCheck s fun a =>
          .next ((s.pushByte a fun _ => ret).jumpTo ((s.pushByte a fun _ => ret).reg i)) := rfl

theorem exec_ret (s : State) :
    exec .ret s = withPopCheck s (s.sp.toNat + 1) fun n => .next ((s.setSp n).jumpTo (s.load s.sp)) := rfl

theorem exec_jmp (r : Byte) (s : State) :
    exec (.jmp r) s = withReg s r fun i => .next (s.jumpTo (s.reg i)) := rfl

theorem exec_jeq (r : Byte) (s : State) :
    exec (.jeq r) s =
      withReg s r fun i => .next (if s.fl.isEqual then s.jumpTo (s.reg i) else s.advance 2) := rfl

theorem exec_jne (r : Byte) (s : State) :
    exec (.jne r) s =
      withReg s r fun i => .next (if !s.fl.isEqual then s.jumpTo (s.reg i) else s.advance 2) := rfl

/-! ### What each meaning can do -/

/-- HLT (R110). -/
theorem execHlt_cases {s t : State} (h : execHlt s = .next t) : t = s.halt := (Host.Outcome.next.inj h).symm

/-- LDI (R111). -/
theorem execLdi_cases {r imm8 : Byte} {s t : State} (h : execLdi r imm8 s = .next t) :
    (∃ hr : r.toNat < 8, t = (s.setReg ⟨r.toNat, hr⟩ imm8).advance 3) ∨
      (8 ≤ r.toNat ∧ t = s.takeFault .addressOutOfRange (r.setWidth 9)) :=
  (withReg_cases h).imp (fun ⟨hr, h⟩ => ⟨hr, (Host.Outcome.next.inj h).symm⟩) id

/-- PRN (R113). -/
theorem execPrn_cases {r : Byte} {s t : State} (h : execPrn r s = .next t) :
    (∃ hr : r.toNat < 8, t = (s.emit (s.reg ⟨r.toNat, hr⟩)).advance 2) ∨
      (8 ≤ r.toNat ∧ t = s.takeFault .addressOutOfRange (r.setWidth 9)) :=
  (withReg_cases h).imp (fun ⟨hr, h⟩ => ⟨hr, (Host.Outcome.next.inj h).symm⟩) id

/-- An instruction whose selector returns a value (R120): the value in regA, or a register fault. -/
theorem execAlu_value {op : BitVec 4} {f : Byte → Byte → Byte} (hf : ∀ a b, alu op a b = .value (f a b))
    {ra rb : Byte} {s t : State} (h : execAlu op ra rb s = .next t) :
    (∃ (ha : ra.toNat < 8) (hb : rb.toNat < 8),
        t = (s.setReg ⟨ra.toNat, ha⟩ (f (s.reg ⟨ra.toNat, ha⟩) (s.reg ⟨rb.toNat, hb⟩))).advance 3) ∨
      (∃ b : Byte, 8 ≤ b.toNat ∧ t = s.takeFault .addressOutOfRange (b.setWidth 9)) := by
  rcases execAlu_cases h with h | ⟨ha, hb, h⟩
  · exact .inr h
  · rw [hf] at h
    exact .inl ⟨ha, hb, (Host.Outcome.next.inj h).symm⟩

/-- ADD (R129). -/
theorem execAdd_cases {ra rb : Byte} {s t : State} (h : execAdd ra rb s = .next t) :
    (∃ (ha : ra.toNat < 8) (hb : rb.toNat < 8), t = (s.setReg ⟨ra.toNat, ha⟩
        (narrow ((s.reg ⟨ra.toNat, ha⟩).toNat + (s.reg ⟨rb.toNat, hb⟩).toNat))).advance 3) ∨
      (∃ b : Byte, 8 ≤ b.toNat ∧ t = s.takeFault .addressOutOfRange (b.setWidth 9)) :=
  execAlu_value alu_add h

/-- MUL (R130). -/
theorem execMul_cases {ra rb : Byte} {s t : State} (h : execMul ra rb s = .next t) :
    (∃ (ha : ra.toNat < 8) (hb : rb.toNat < 8), t = (s.setReg ⟨ra.toNat, ha⟩
        (narrow ((s.reg ⟨ra.toNat, ha⟩).toNat * (s.reg ⟨rb.toNat, hb⟩).toNat))).advance 3) ∨
      (∃ b : Byte, 8 ≤ b.toNat ∧ t = s.takeFault .addressOutOfRange (b.setWidth 9)) :=
  execAlu_value alu_mul h

/-- SUB (R132). -/
theorem execSub_cases {ra rb : Byte} {s t : State} (h : execSub ra rb s = .next t) :
    (∃ (ha : ra.toNat < 8) (hb : rb.toNat < 8), t = (s.setReg ⟨ra.toNat, ha⟩
        (BitVec.ofInt 8 (((s.reg ⟨ra.toNat, ha⟩).toNat : Int) - (s.reg ⟨rb.toNat, hb⟩).toNat))).advance 3) ∨
      (∃ b : Byte, 8 ≤ b.toNat ∧ t = s.takeFault .addressOutOfRange (b.setWidth 9)) :=
  execAlu_value alu_sub h

/-- CMP (R131). -/
theorem execCmp_cases {ra rb : Byte} {s t : State} (h : execCmp ra rb s = .next t) :
    (∃ (ha : ra.toNat < 8) (hb : rb.toNat < 8),
        t = (s.setFl (compareFlag (s.reg ⟨ra.toNat, ha⟩) (s.reg ⟨rb.toNat, hb⟩))).advance 3) ∨
      (∃ b : Byte, 8 ≤ b.toNat ∧ t = s.takeFault .addressOutOfRange (b.setWidth 9)) := by
  rcases execAlu_cases h with h | ⟨ha, hb, h⟩
  · exact .inr h
  · rw [alu_cmp] at h
    exact .inl ⟨ha, hb, (Host.Outcome.next.inj h).symm⟩

/-- DIV (R133). -/
theorem execDiv_cases {ra rb : Byte} {s t : State} (h : execDiv ra rb s = .next t) :
    (∃ (ha : ra.toNat < 8) (hb : rb.toNat < 8), (s.reg ⟨rb.toNat, hb⟩).toNat ≠ 0 ∧
        t = (s.setReg ⟨ra.toNat, ha⟩
          (narrow ((s.reg ⟨ra.toNat, ha⟩).toNat / (s.reg ⟨rb.toNat, hb⟩).toNat))).advance 3) ∨
      (∃ hb : rb.toNat < 8, (s.reg ⟨rb.toNat, hb⟩).toNat = 0 ∧
        t = s.takeFault .divideByZero (BitVec.ofNat 9 rb.toNat)) ∨
      (∃ b : Byte, 8 ≤ b.toNat ∧ t = s.takeFault .addressOutOfRange (b.setWidth 9)) := by
  rcases execAlu_cases h with h | ⟨ha, hb, h⟩
  · exact .inr (.inr h)
  · rw [alu_div] at h
    split_ifs at h with hz
    · exact .inr (.inl ⟨hb, hz, (Host.Outcome.next.inj h).symm⟩)
    · exact .inl ⟨ha, hb, hz, (Host.Outcome.next.inj h).symm⟩

/-- PUSH (R141). -/
theorem execPush_cases {r : Byte} {s t : State} (h : execPush r s = .next t) :
    (∃ hr : r.toNat < 8, s.sp.toNat ≠ 0 ∧
        t = (s.pushByte (narrow (s.sp.toNat - 1)) fun u => u.reg ⟨r.toNat, hr⟩).advance 2) ∨
      (∃ info, t = s.takeFault .addressOutOfRange info) := by
  rcases withReg_cases h with ⟨hr, h⟩ | ⟨-, h⟩
  · rcases withPushCheck_cases h with ⟨hs, h⟩ | ⟨-, h⟩
    · exact .inl ⟨hr, hs, (Host.Outcome.next.inj h).symm⟩
    · exact .inr ⟨_, h⟩
  · exact .inr ⟨_, h⟩

/-- POP (R142). -/
theorem execPop_cases {r : Byte} {s t : State} (h : execPop r s = .next t) :
    (∃ hr : r.toNat < 8, (s.setReg ⟨r.toNat, hr⟩ (s.load s.sp)).sp.toNat + 1 ≤ 255 ∧
        t = ((s.setReg ⟨r.toNat, hr⟩ (s.load s.sp)).setSp
          (narrow ((s.setReg ⟨r.toNat, hr⟩ (s.load s.sp)).sp.toNat + 1))).advance 2) ∨
      (∃ info, t = s.takeFault .addressOutOfRange info) := by
  rcases withReg_cases h with ⟨hr, h⟩ | ⟨-, h⟩
  · rcases withPopCheck_cases h with ⟨hs, h⟩ | ⟨-, h⟩
    · exact .inl ⟨hr, hs, (Host.Outcome.next.inj h).symm⟩
    · exact .inr ⟨_, h⟩
  · exact .inr ⟨_, h⟩

/-- CALL (R151). -/
theorem execCall_cases {r : Byte} {s t : State} (h : execCall r s = .next t) :
    (∃ hr : r.toNat < 8, s.pc.toNat + 2 ≤ 255 ∧ s.sp.toNat ≠ 0 ∧
        t = (s.pushByte (narrow (s.sp.toNat - 1)) fun _ => narrow (s.pc.toNat + 2)).jumpTo
          ((s.pushByte (narrow (s.sp.toNat - 1)) fun _ => narrow (s.pc.toNat + 2)).reg ⟨r.toNat, hr⟩)) ∨
      (∃ info, t = s.takeFault .addressOutOfRange info) := by
  rcases withReg_cases h with ⟨hr, h⟩ | ⟨-, h⟩
  · rcases withReturnAddress_cases h with ⟨hp, h⟩ | ⟨-, h⟩
    · rcases withPushCheck_cases h with ⟨hs, h⟩ | ⟨-, h⟩
      · exact .inl ⟨hr, hp, hs, (Host.Outcome.next.inj h).symm⟩
      · exact .inr ⟨_, h⟩
    · exact .inr ⟨_, h⟩
  · exact .inr ⟨_, h⟩

/-- RET (R152). -/
theorem execRet_cases {s t : State} (h : execRet s = .next t) :
    (s.sp.toNat + 1 ≤ 255 ∧ t = (s.setSp (narrow (s.sp.toNat + 1))).jumpTo (s.load s.sp)) ∨
      (∃ info, t = s.takeFault .addressOutOfRange info) := by
  rcases withPopCheck_cases h with ⟨hs, h⟩ | ⟨-, h⟩
  · exact .inl ⟨hs, (Host.Outcome.next.inj h).symm⟩
  · exact .inr ⟨_, h⟩

/-- JMP (R153). -/
theorem execJmp_cases {r : Byte} {s t : State} (h : execJmp r s = .next t) :
    (∃ hr : r.toNat < 8, t = s.jumpTo (s.reg ⟨r.toNat, hr⟩)) ∨
      (8 ≤ r.toNat ∧ t = s.takeFault .addressOutOfRange (r.setWidth 9)) :=
  (withReg_cases h).imp (fun ⟨hr, h⟩ => ⟨hr, (Host.Outcome.next.inj h).symm⟩) id

/-- JEQ and JNE (R154, R155). -/
theorem jumpIf_cases {taken : Bool} {r : Byte} {s t : State} (h : jumpIf taken r s = .next t) :
    (∃ hr : r.toNat < 8, t = if taken then s.jumpTo (s.reg ⟨r.toNat, hr⟩) else s.advance 2) ∨
      (8 ≤ r.toNat ∧ t = s.takeFault .addressOutOfRange (r.setWidth 9)) :=
  (withReg_cases h).imp (fun ⟨hr, h⟩ => ⟨hr, (Host.Outcome.next.inj h).symm⟩) id

/-! ### The byte a push stores -/

@[simp] theorem pushByte_mem (s : State) (a : Byte) (v : State → Byte) :
    (s.pushByte a v).mem = Memory.write s.mem a.toNat (v (s.setSp a)) := rfl

@[simp] theorem pushByte_regs (s : State) (a : Byte) (v : State → Byte) :
    (s.pushByte a v).regs = (s.setSp a).regs := rfl

@[simp] theorem pushByte_reg (s : State) (a : Byte) (v : State → Byte) (i : Fin 8) :
    (s.pushByte a v).reg i = (s.setSp a).reg i := rfl

@[simp] theorem pushByte_pc (s : State) (a : Byte) (v : State → Byte) : (s.pushByte a v).pc = s.pc := rfl

@[simp] theorem pushByte_fl (s : State) (a : Byte) (v : State → Byte) : (s.pushByte a v).fl = s.fl := rfl

@[simp] theorem pushByte_rs (s : State) (a : Byte) (v : State → Byte) : (s.pushByte a v).rs = s.rs := rfl

@[simp] theorem pushByte_fault (s : State) (a : Byte) (v : State → Byte) : (s.pushByte a v).fault = s.fault := rfl

@[simp] theorem pushByte_output (s : State) (a : Byte) (v : State → Byte) :
    (s.pushByte a v).output = s.output := rfl

@[simp] theorem pushByte_sp (s : State) (a : Byte) (v : State → Byte) : (s.pushByte a v).sp = a :=
  sp_setSp s a

end Sys2Proof.Machine
end

