-- ==== Sys2Proof/Laws/PerInstr.lean ====
section
/-! SUPPORT. Statements about the instruction as text, one lemma for each constructor. Family EncodedWidth: the bytes of an
instruction are as many as its width, in every configuration (R75). -/

namespace Sys2Proof.Laws.EncodedWidth

/-- The encoding of an instruction has its width (R75). -/
def Statement (i : Instr) : Prop := ∀ c : Config, (encode c i).length = i.width

theorem hlt : Statement .hlt := fun _ => rfl
theorem ldi (r imm8 : Byte) : Statement (.ldi r imm8) := fun _ => rfl
theorem prn (r : Byte) : Statement (.prn r) := fun _ => rfl
theorem add (ra rb : Byte) : Statement (.add ra rb) := fun _ => rfl
theorem mul (ra rb : Byte) : Statement (.mul ra rb) := fun _ => rfl
theorem cmp (ra rb : Byte) : Statement (.cmp ra rb) := fun _ => rfl
theorem push (r : Byte) : Statement (.push r) := fun _ => rfl
theorem pop (r : Byte) : Statement (.pop r) := fun _ => rfl
theorem call (r : Byte) : Statement (.call r) := fun _ => rfl
theorem ret : Statement .ret := fun _ => rfl
theorem jmp (r : Byte) : Statement (.jmp r) := fun _ => rfl
theorem jeq (r : Byte) : Statement (.jeq r) := fun _ => rfl
theorem jne (r : Byte) : Statement (.jne r) := fun _ => rfl
theorem sub (ra rb : Byte) : Statement (.sub ra rb) := fun _ => rfl
theorem div (ra rb : Byte) : Statement (.div ra rb) := fun _ => rfl

end Sys2Proof.Laws.EncodedWidth
end

