-- ==== Sys2Proof/Tests/Slice0.lean ====
section
/-! SUPPORT. The model's own tests: ill-formed terms, decoding of words written out from R71 and R72, one-step tests
whose results are the vectors V<n> of spec/95_test_vectors.md, and a witness for the hypotheses of each obligation. -/

namespace Sys2Proof.Tests

open Sys2Proof.Machine

/-! ### Ill-formed terms -/

theorem smoke_register_operand_refused :
    (Instr.prn 8).wellFormed = false ∧ (Instr.push 8).wellFormed = false ∧ (Instr.pop 9).wellFormed = false ∧
    (Instr.call 8).wellFormed = false ∧ (Instr.jmp 255).wellFormed = false ∧ (Instr.jeq 8).wellFormed = false ∧
    (Instr.jne 16).wellFormed = false ∧ (Instr.ldi 8 1).wellFormed = false := by decide

theorem smoke_first_of_two_registers_refused :
    (Instr.add 8 0).wellFormed = false ∧ (Instr.mul 8 0).wellFormed = false ∧ (Instr.cmp 8 0).wellFormed = false ∧
    (Instr.sub 8 0).wellFormed = false ∧ (Instr.div 8 0).wellFormed = false := by decide

theorem smoke_second_of_two_registers_refused :
    (Instr.add 0 8).wellFormed = false ∧ (Instr.mul 0 8).wellFormed = false ∧ (Instr.cmp 0 9).wellFormed = false ∧
    (Instr.sub 0 8).wellFormed = false ∧ (Instr.div 0 8).wellFormed = false := by decide

/-- The immediate of LDI is not checked (R74), and 7 is a register (R21). -/
theorem smoke_well_formed_accepted :
    (Instr.ldi 7 255).wellFormed = true ∧ (Instr.add 7 7).wellFormed = true ∧ Instr.ret.wellFormed = true := by decide

/-- SUB and DIV are absent without `EXT_SUB_DIV` (R72). -/
theorem smoke_absent_instruction_refused :
    (Instr.sub 0 1).presentIn Config.specDefault = false ∧ (Instr.div 0 1).presentIn Config.specDefault = false ∧
    (Instr.sub 0 1).presentIn Config.machine = true ∧ (Instr.hlt).presentIn Config.specDefault = true := by decide

/-- A map with two instructions on one byte, or with 0xFF assigned, breaks R73. -/
theorem smoke_bad_opcode_map_refused :
    ¬ Config.wf { Config.specDefault with opcodeMap := { OpcodeMap.ls8 with jmp := 0x01#8 } } ∧
    ¬ Config.wf { Config.specDefault with opcodeMap := { OpcodeMap.ls8 with hlt := 0xFF#8 } } := by decide

/-! ### Decoding: every opcode bit by bit from R72, the operand bytes in the order of R71 -/

/-- The instruction decoded from exactly these bytes. -/
def decoded (bytes : List Byte) : Option Instr :=
  match decode Config.machine bytes with
  | .ok (i, []) => some i
  | _ => none

theorem test_decode_hlt : decoded [0b00000001#8] = some .hlt := by decide
theorem test_decode_ldi : decoded [0b10000010#8, 0b00000101#8, 0b11111110#8] = some (.ldi 5 254) := by decide
theorem test_decode_prn : decoded [0b01000111#8, 0b00000011#8] = some (.prn 3) := by decide
theorem test_decode_add : decoded [0b10100000#8, 0b00000110#8, 0b00000001#8] = some (.add 6 1) := by decide
theorem test_decode_mul : decoded [0b10100010#8, 0b00000000#8, 0b00000001#8] = some (.mul 0 1) := by decide
theorem test_decode_cmp : decoded [0b10100111#8, 0b00000010#8, 0b00000101#8] = some (.cmp 2 5) := by decide
theorem test_decode_push : decoded [0b01000101#8, 0b00000111#8] = some (.push 7) := by decide
theorem test_decode_pop : decoded [0b01000110#8, 0b00000100#8] = some (.pop 4) := by decide
theorem test_decode_call : decoded [0b01010000#8, 0b00000001#8] = some (.call 1) := by decide
theorem test_decode_ret : decoded [0b00010001#8] = some .ret := by decide
theorem test_decode_jmp : decoded [0b01010100#8, 0b00000010#8] = some (.jmp 2) := by decide
theorem test_decode_jeq : decoded [0b01010101#8, 0b00000011#8] = some (.jeq 3) := by decide
theorem test_decode_jne : decoded [0b01010110#8, 0b00000110#8] = some (.jne 6) := by decide
theorem test_decode_sub : decoded [0b10100001#8, 0b00000011#8, 0b00000100#8] = some (.sub 3 4) := by decide
theorem test_decode_div : decoded [0b10100011#8, 0b00000001#8, 0b00000000#8] = some (.div 1 0) := by decide

/-- The table numbers the bits of the second byte from 8 and of the third from 16; bits beyond `nbits` are 0. -/
theorem test_decode_table_words :
    decodeTableWord 24 0x0100A2 = some (.mul 0 1) ∧ decodeTableWord 16 0x0745 = some (.push 7) ∧
    decodeTableWord 8 0x01 = some .hlt ∧ decodeTableWord 8 0x0582 = some (.ldi 0 0) ∧
    decodeTableWord 8 0xFF = none := by decide

/-! ### One step, on the vectors of spec/95 -/

/-- A running state with R0, R1, R2, R3 and SP as given, the other registers 0. -/
def cpu (pc : Word9) (r0 r1 r2 r3 sp : Byte) (fl : Flag) (mem : Memory) : State :=
  { State.reset with regs := #v[r0, r1, r2, r3, 0, 0, 0, sp], pc := pc, fl := fl, mem := mem }

/-- Something of the next state, when there is one. -/
def after {α : Type} (r : Result) (f : State → α) : Option α :=
  match r with
  | .next t => some (f t)
  | _ => none

/-- Every part of a state but memory and the output: R0, SP, `pc`, FL, RS. -/
def core5 (t : State) : Byte × Byte × Nat × Flag × RunState := (t.reg 0, t.sp, t.pc.toNat, t.fl, t.rs)

/-- Run state, code, pc, opcode and info of the fault record. -/
def fault5 (t : State) : RunState × Nat × Nat × Nat × Nat :=
  (t.rs, t.fault.code.toNat, t.fault.pc.toNat, t.fault.opcode.toNat, t.fault.info.toNat)

/-- V11. -/
theorem test_hlt_at_255 :
    after (step (cpu 255 1 0 0 0 0xF4 .equal [(255, 0x01)])) core5 = some (1, 0xF4, 255, .equal, .halted) := by decide
/-- V14. -/
theorem test_ldi_sp :
    after (step ((cpu 0 1 0 0 0 0xF4 .unset []).withFetchWord 24 0x100782)) core5 =
      some (1, 0x10, 3, .unset, .running) := by decide
/-- V16: the last byte of the instruction is at 255. -/
theorem test_ldi_ends_at_255 :
    after (step ((cpu 253 0 0 0 0 0xF4 .unset []).withFetchWord 24 0x070182)) (fun t => (t.reg 1, t.pc)) =
      some (7#8, 256#9) := by decide
/-- V20. -/
theorem test_prn_sp :
    after (step ((cpu 0 0 0 0 0 0xF4 .unset []).withFetchWord 16 0x0747)) (fun t => (t.output, t.pc)) =
      some ([244#8], 2#9) := by decide
/-- V21. -/
theorem test_prn_register_9 :
    after (step ((cpu 0 0 0 0 0 0xF4 .unset []).withFetchWord 16 0x0947)) (fun t => (t.output, fault5 t)) =
      some ([], .faulted, 3, 0, 0x47, 9) := by decide
/-- V31. -/
theorem test_add_wraps :
    after (step ((cpu 0 200 100 0 0 0xF4 .lessThan []).withFetchWord 24 0x0100A0)) core5 =
      some (44, 0xF4, 3, .lessThan, .running) := by decide
/-- V34: destination and source are one register. -/
theorem test_add_doubles :
    after (step ((cpu 0 0x80 0 0 0 0xF4 .unset []).withFetchWord 24 0x0000A0)) (fun t => t.reg 0) = some 0#8 := by decide
/-- V42. -/
theorem test_mul_low_byte :
    after (step ((cpu 0 255 255 0 0 0xF4 .unset []).withFetchWord 24 0x0100A2)) (fun t => t.reg 0) = some 1#8 := by decide
/-- V53 and V54: the comparison is unsigned. -/
theorem test_cmp_unsigned :
    after (step ((cpu 0 0 255 0 0 0xF4 .unset []).withFetchWord 24 0x0100A7)) core5 =
      some (0, 0xF4, 3, .lessThan, .running) ∧
    after (step ((cpu 0 255 0 0 0 0xF4 .unset []).withFetchWord 24 0x0100A7)) (fun t => t.fl) =
      some .greaterThan := by decide
/-- V56. -/
theorem test_cmp_bad_register_keeps_flag :
    after (step ((cpu 0 0 0 0 0 0xF4 .equal []).withFetchWord 24 0x0900A7)) (fun t => (t.fl, fault5 t)) =
      some (.equal, .faulted, 3, 0, 0xA7, 9) := by decide
/-- V61. -/
theorem test_sub_wraps :
    after (step ((cpu 0 3 5 0 0 0xF4 .unset []).withFetchWord 24 0x0100A1)) core5 =
      some (254, 0xF4, 3, .unset, .running) := by decide
/-- V64. -/
theorem test_div_truncates :
    after (step ((cpu 0 7 2 0 0 0xF4 .unset []).withFetchWord 24 0x0100A3)) (fun t => t.reg 0) = some 3#8 := by decide
/-- V67. -/
theorem test_div_by_zero :
    after (step ((cpu 0 200 0 0 0 0xF4 .unset []).withFetchWord 24 0x0100A3)) (fun t => (t.reg 0, fault5 t)) =
      some (200#8, .faulted, 4, 0, 0xA3, 1) := by decide
/-- V81: the push overwrites the first byte of the program. -/
theorem test_push_at_sp_1 :
    after (step ((cpu 0 0x77 0 0 0 1 .unset []).withFetchWord 16 0x0045)) (fun t => (t.sp, t.mem.read 0)) =
      some (0#8, 0x77#8) := by decide
/-- V83. -/
theorem test_push_r7 :
    after (step ((cpu 0 0 0 0 0 0xF4 .unset []).withFetchWord 16 0x0745)) (fun t => (t.sp, t.mem.read 0xF3)) =
      some (0xF3#8, 0xF3#8) := by decide
/-- V85. -/
theorem test_pop_keeps_the_cell :
    after (step ((cpu 0 0 0 0 0 0xF3 .unset [(0xF3, 1)]).withFetchWord 16 0x0346))
      (fun t => (t.reg 3, t.sp, t.mem.read 0xF3)) = some (1#8, 0xF4#8, 1#8) := by decide
/-- V88. -/
theorem test_pop_r7 :
    after (step ((cpu 0 0 0 0 0 0xF3 .unset [(0xF3, 0x10)]).withFetchWord 16 0x0746)) (fun t => t.sp) =
      some 0x11#8 := by decide
/-- V100. -/
theorem test_call :
    after (step ((cpu 6 0 12 0 0 0xF4 .unset []).withFetchWord 16 0x0150)) (fun t => (t.sp, t.mem.read 0xF3, t.pc)) =
      some (0xF3#8, 8#8, 12#9) := by decide
/-- V104. -/
theorem test_call_r7 :
    after (step ((cpu 0x20 0 0 0 0 0xF4 .unset []).withFetchWord 16 0x0750)) (fun t => (t.mem.read 0xF3, t.pc)) =
      some (0x22#8, 0xF3#9) := by decide
/-- V105. -/
theorem test_ret :
    after (step ((cpu 0 0 0 0 0 0xF3 .unset [(0xF3, 8)]).withFetchWord 8 0x11)) (fun t => (t.sp, t.pc)) =
      some (0xF4#8, 8#9) := by decide
/-- V106. -/
theorem test_ret_at_sp_255 :
    after (step ((cpu 0 0 0 0 0 0xFF .unset []).withFetchWord 8 0x11)) (fun t => (t.sp, fault5 t)) =
      some (0xFF#8, .faulted, 3, 0, 0x11, 256) := by decide
/-- V110. -/
theorem test_jmp :
    after (step ((cpu 0 0 0 0x20 0 0xF4 .unset []).withFetchWord 16 0x0254)) (fun t => t.pc) = some 0x20#9 := by decide
/-- V120 and V121. -/
theorem test_jeq :
    after (step ((cpu 4 0 0 0 40 0xF4 .equal []).withFetchWord 16 0x0355)) (fun t => t.pc) = some 40#9 ∧
    after (step ((cpu 4 0 0 0 40 0xF4 .lessThan []).withFetchWord 16 0x0355)) (fun t => t.pc) = some 6#9 := by decide
/-- V124: the register is checked although the jump would not be taken. -/
theorem test_jeq_bad_register :
    after (step ((cpu 4 0 0 0 0 0xF4 .lessThan []).withFetchWord 16 0x0855)) fault5 =
      some (.faulted, 3, 4, 0x55, 8) := by decide
/-- V132 and V134. -/
theorem test_jne :
    after (step ((cpu 4 0 0 0 12 0xF4 .unset []).withFetchWord 16 0x0356)) (fun t => t.pc) = some 12#9 ∧
    after (step ((cpu 254 0 0 0 12 0xF4 .equal []).withFetchWord 16 0x0356)) (fun t => t.pc) = some 256#9 := by decide
/-- V5: the operand fetch is checked before the register index. -/
theorem test_fault_order :
    after (step (cpu 254 0 0 0 0 0xF4 .unset [(254, 0xA0), (255, 9)])) fault5 =
      some (.faulted, 3, 254, 0xA0, 256) := by decide
/-- V3 and V1. -/
theorem test_opcode_faults :
    after (step (cpu 256 0 0 0 0 0xF4 .unset [])) fault5 = some (.faulted, 3, 256, 0, 256) ∧
    after (step (cpu 3 0 0 0 0 0xF4 .unset [(3, 0xFF)])) fault5 = some (.faulted, 1, 3, 0xFF, 0xFF) := by decide
/-- V7: 0xA1 is unknown without `EXT_SUB_DIV`. -/
theorem test_sub_absent :
    after (stepWith Config.specDefault ((cpu 0 0 0 0 0 0xF4 .unset []).withFetchWord 24 0x0100A1)) fault5 =
      some (.faulted, 1, 0, 0xA1, 0xA1) := by decide
/-- V140 and V141. -/
theorem test_reset_from_faulted :
    (State.resetFrom Config.machine ((cpu 9 1 2 3 4 5 .equal [(9, 0xFF)]).takeFault .unknownOpcode 0xFF)) =
      { State.reset with mem := [(9, 0xFF)] } := by decide
/-- V70 and V71. -/
theorem test_alu_unit :
    alu 0x4#4 1 2 = .fault .unsupportedOperation ∧ alu 0x7#4 9 9 = .flag .equal := by decide

/-! ### Witnesses: a state and operands that meet the hypotheses of an obligation -/

/-- A running state about to run the instruction whose bytes are those of a table word. -/
def ready (pc : Word9) (sp : Byte) (nbits w : Nat) : State := (cpu pc 3 5 0 0 sp .unset []).withFetchWord nbits w

theorem witness_DecodeEncodeRoundTrip :
    Config.machine.wf ∧ (Instr.sub 7 255).presentIn Config.machine = true ∧
    Config.wf { Config.specDefault with opcodeMap := { OpcodeMap.ls8 with hlt := 0xFE#8 } } := by decide

theorem witness_DecodedBytesAreTheEncoding :
    decode Config.machine [0x45#8, 0xFF#8, 0x01#8] = .ok (.push 0xFF, [0x01#8]) := by decide

/-- An opcode at address 255 that no instruction has; it serves UnknownOpcodeIsFatal too. -/
theorem witness_DecodeIsTheOpcodeMap :
    Config.machine.wf ∧ (ready 255 0xF4 8 0xFF).rs = .running ∧ (ready 255 0xF4 8 0xFF).pc.toNat ≤ 255 ∧
    (ready 255 0xF4 8 0xFF).mem.read 255 = 0xFF#8 ∧
    ∀ m ∈ Config.machine.present, Config.machine.opcodeMap.byte m ≠ 0xFF#8 := by decide

theorem witness_UnknownOpcodeIsFatal :
    (ready 255 0xF4 8 0xFF).rs = .running ∧ (ready 255 0xF4 8 0xFF).pc.toNat ≤ 255 ∧
    ∀ m ∈ Config.machine.present,
      Config.machine.opcodeMap.byte m ≠ (ready 255 0xF4 8 0xFF).mem.read (ready 255 0xF4 8 0xFF).pc.toNat := by decide

/-- An instruction that ends at 255, decoded in both configurations. -/
theorem witness_StepRunsTheDecodedInstruction :
    (ready 254 0xF4 16 0x0047).rs = .running ∧
    decode Config.specDefault (ready 254 0xF4 16 0x0047).codeBytes = .ok (.prn 0, []) ∧
    decode Config.machine (ready 254 0xF4 16 0x0047).codeBytes = .ok (.prn 0, []) := by decide

theorem witness_StepRunsTheDecodedInstruction_bytes :
    (ready 254 0xF4 16 0x0047).pc.toNat + [0x47#8, 0x00#8].length ≤ 256 ∧ [0x47#8, 0x00#8].length ≤ 3 ∧
    ∀ k < 2, some ((ready 254 0xF4 16 0x0047).mem.read ((ready 254 0xF4 16 0x0047).pc.toNat + k)) =
      [0x47#8, 0x00#8][k]? := by decide

theorem witness_StepExistsExactlyWhenRunning :
    State.reset.rs = .running ∧ State.reset.halt.rs = .halted ∧
    (State.reset.takeFault .unknownOpcode 0).rs = .faulted := by decide

/-- The three clauses: opcode at 256; the last operand byte at 256 for widths 2 and 3; an instruction that just fits. -/
theorem witness_FetchBeyondMemoryFaults :
    (cpu 256 0 0 0 0 0xF4 .unset []).rs = .running ∧ 255 < (cpu 256 0 0 0 0 0xF4 .unset []).pc.toNat ∧
    decodeOpcode Config.machine ((ready 254 0xF4 8 0x82).mem.read 254) = some .ldi ∧ 2 < Mnemonic.ldi.width ∧
    decodeOpcode Config.machine ((ready 255 0xF4 8 0x47).mem.read 255) = some .prn ∧ 1 < Mnemonic.prn.width ∧
    decodeOpcode Config.machine ((ready 253 0xF4 8 0x82).mem.read 253) = some .ldi ∧
    253 + Mnemonic.ldi.width ≤ 256 := by decide

theorem witness_RegisterIndexIsAlwaysChecked :
    (7#8).toNat < 8 ∧ ((Instr.add 7 8).regOperands.find? fun b => 8 ≤ b.toNat) = some 8 ∧
    ((Instr.add 9 8).regOperands.find? fun b => 8 ≤ b.toNat) = some 9 ∧
    ((Instr.ldi 8 0).regOperands.find? fun b => 8 ≤ b.toNat) = some 8 := by decide

/-- A step whose checks all pass, and one whose third check fails. -/
theorem witness_StepFaultIsTheFirstFailingCheck :
    (ready 254 0xF4 16 0x0047).rs = .running ∧
    (checksOf Config.machine (ready 254 0xF4 16 0x0047)).find? (·.failed) = none ∧
    (ready 254 0xF4 8 0xA0).rs = .running ∧
    (checksOf Config.machine (ready 254 0xF4 8 0xA0)).find? (·.failed) =
      some ⟨true, .addressOutOfRange, 256#9⟩ := by decide

theorem witness_TakingAFaultWritesTheRecord :
    (ready 255 0xF4 8 0x47).pc.toNat ≤ 255 ∧ 255 < (cpu 256 0 0 0 0 0xF4 .unset []).pc.toNat := by decide

/-- PUSH at SP = 0 faults; it serves the other statements about a faulting step too. -/
theorem witness_FaultsArePrecise :
    ∃ t, stepWith Config.machine (ready 6 0 16 0x0045) = .next t ∧ t.rs = .faulted := ⟨_, rfl, by decide⟩

theorem witness_UnsupportedAluFaultIsUnreachable :
    ∃ t, stepWith Config.machine (ready 6 0 16 0x0045) = .next t ∧ t.rs = .faulted := ⟨_, rfl, by decide⟩

theorem witness_AluSubDivAndSelectors :
    0#8 = 0#8 ∧ 1#8 ≠ 0#8 ∧ (0#8).toNat < 8 ∧ (7#8).toNat < 8 := by decide

theorem witness_DivideByZeroFaults :
    (0#8).toNat < 8 ∧ (2#8).toNat < 8 ∧ (ready 0 0xF4 24 0x0200A3).reg ⟨2, by decide⟩ = 0#8 ∧
    ∃ t, stepWith Config.machine (ready 0 0xF4 24 0x0200A3) = .next t ∧ t.rs = .faulted ∧ t.fault.code = 4#3 :=
  ⟨by decide, by decide, by decide, _, rfl, by decide, by decide⟩

theorem witness_ResetMeetsTheInvariant : (ready 0 0xF4 24 0x0200A3).mem.wf ∧ Memory.wf [(255, 1)] := by decide

/-- A state about to run PRN at 254. -/
theorem inv_ready : (ready 254 0xF4 16 0x0047).Inv Config.machine where
  memory := by decide
  pcRange := by decide
  recordClear := fun _ => by decide
  haltedAtHlt := fun h => absurd h (by decide)
  recordAgrees := fun h => absurd h (by decide)

theorem witness_EveryStepKeepsTheInvariant :
    (ready 254 0xF4 16 0x0047).Inv Config.machine ∧ ∃ t, step (ready 254 0xF4 16 0x0047) = .next t :=
  ⟨inv_ready, _, rfl⟩

/-- Register bytes at both ends of the range; it serves LDI, PRN, ADD, MUL, SUB, CMP and JMP. -/
theorem witness_registers : (0#8).toNat < 8 ∧ (7#8).toNat < 8 := by decide

theorem witness_DivTruncates :
    (0#8).toNat < 8 ∧ (1#8).toNat < 8 ∧ (ready 0 0xF4 24 0x0100A3).reg ⟨1, by decide⟩ ≠ 0#8 := by decide

/-- SP = 1, SP = 0xFF and SP = 0. -/
theorem witness_PushStoresBelow :
    (7#8).toNat < 8 ∧ (ready 0 1 16 0x0745).sp ≠ 0#8 ∧ (ready 0 0xFF 16 0x0745).sp ≠ 0#8 ∧
    (ready 0 0 16 0x0745).sp = 0#8 := by decide

/-- SP = 0xFE; R7 with a popped 0xFE; SP = 0xFF; R7 with a popped 0xFF. R7 at SP = 0xFF does not fault. -/
theorem witness_PopLoadsTheTop :
    (3#8 ≠ 7#8 ∧ (ready 0 0xFE 16 0x0346).sp ≠ 0xFF#8) ∧
    (cpu 0 0 0 0 0 0xFF .unset [(0xFF, 0xFE)]).mem.read 0xFF = 0xFE#8 ∧ 0xFE#8 ≠ 0xFF#8 ∧
    (ready 0 0xFF 16 0x0346).sp = 0xFF#8 ∧
    (cpu 0 0 0 0 0 0xF3 .unset [(0xF3, 0xFF)]).mem.read 0xF3 = 0xFF#8 := by decide

/-- `pc` = 253 with SP = 1; `pc` = 254; `pc` = 253 with SP = 0. -/
theorem witness_CallPushesTheReturnAddress :
    ((ready 253 1 16 0x0150).pc.toNat + 2 ≤ 255 ∧ (ready 253 1 16 0x0150).sp ≠ 0#8) ∧
    255 < (ready 254 0 16 0x0150).pc.toNat + 2 ∧
    ((ready 253 0 16 0x0150).pc.toNat + 2 ≤ 255 ∧ (ready 253 0 16 0x0150).sp = 0#8) := by decide

theorem witness_RetPopsThePc : (ready 0 0xFE 8 0x11).sp ≠ 0xFF#8 ∧ (ready 0 0xFF 8 0x11).sp = 0xFF#8 := by decide

/-- It serves JEQ and JNE: each condition holds in one state. -/
theorem witness_conditions :
    (7#8).toNat < 8 ∧ (cpu 0 0 0 0 0 0xF4 .equal []).fl = .equal ∧ (cpu 0 0 0 0 0 0xF4 .unset []).fl ≠ .equal ∧
    (cpu 0 0 0 0 0 0xF4 .greaterThan []).fl ≠ .equal := by decide

theorem witness_AluAddMulAndCmp :
    0#8 = 0#8 ∧ (254#8).toNat < (255#8).toNat ∧ (0#8).toNat < (1#8).toNat := by decide

/-- Each instruction of the frame gives a next state. -/
theorem witness_RegisterInstructionFrame (i : Instr)
    (hi : i ∈ [Instr.ldi 7 255, .prn 7, .add 0 7, .mul 0 7, .cmp 0 7, .sub 0 7, .div 0 7]) :
    (after (exec i (ready 0 0xF4 8 0x01)) fun t => t.rs) = some .running := by
  revert i; decide

theorem witness_PushingInstructionFrame :
    (ready 0 1 16 0x0145).mem.wf ∧ (ready 0 0 16 0x0145).sp = 0#8 ∧
    (∃ t, exec (.push 1) (ready 0 1 16 0x0145) = .next t) ∧ ∃ t, exec (.call 1) (ready 0 0 16 0x0145) = .next t :=
  ⟨by decide, by decide, ⟨_, rfl⟩, _, rfl⟩

theorem witness_PoppingInstructionFrame :
    (∃ t, exec (.pop 1) (ready 0 0xF4 8 0x01) = .next t) ∧ ∃ t, exec .ret (ready 0 0xF4 8 0x01) = .next t :=
  ⟨⟨_, rfl⟩, _, rfl⟩

theorem witness_JumpAndHaltFrame :
    (∃ t, exec .hlt (ready 0 0xF4 8 0x01) = .next t) ∧ (∃ t, exec (.jmp 1) (ready 0 0xF4 8 0x01) = .next t) ∧
    (∃ t, exec (.jeq 1) (ready 0 0xF4 8 0x01) = .next t) ∧ ∃ t, exec (.jne 1) (ready 0 0xF4 8 0x01) = .next t :=
  ⟨⟨_, rfl⟩, ⟨_, rfl⟩, ⟨_, rfl⟩, _, rfl⟩

theorem witness_FlagChangesOnlyByCmp :
    ∃ t, stepWith Config.machine (ready 0 0xF4 24 0x0100A7) = .next t ∧ t.fl ≠ (ready 0 0xF4 24 0x0100A7).fl :=
  ⟨_, rfl, by decide⟩

theorem witness_OutputGrowsOnlyByPrn :
    (∃ t, stepWith Config.machine (ready 0 0xF4 16 0x0147) = .next t) ∧
    outputEvent Config.machine (ready 0 0xF4 16 0x0147) = some 5#8 := ⟨⟨_, rfl⟩, by decide⟩

theorem witness_HaltedOnlyByHlt :
    ∃ t, stepWith Config.machine (ready 255 0xF4 8 0x01) = .next t ∧ t.rs = .halted := ⟨_, rfl, by decide⟩

/-- PUSH at SP = 1 changes the byte at 0. -/
theorem witness_MemoryChangesOnlyByPushAndCall :
    (ready 0 1 16 0x0045).mem.wf ∧ ∃ t, stepWith Config.machine (ready 0 1 16 0x0045) = .next t ∧
      t.mem.read 0 ≠ (ready 0 1 16 0x0045).mem.read 0 := ⟨by decide, _, rfl, by decide⟩

/-- ADD at 252, and ADD at 253 with a register byte of 8: the two clauses of the default advance. -/
theorem witness_DefaultAdvance :
    decode Config.machine (ready 252 0xF4 24 0x0100A0).codeBytes = .ok (.add 0 1, []) ∧
    (Instr.add 0 1).setsPcItself = false ∧
    (∃ t, stepWith Config.machine (ready 252 0xF4 24 0x0100A0) = .next t ∧ t.rs ≠ .faulted) ∧
    decode Config.machine (ready 253 0xF4 24 0x0800A0).codeBytes = .ok (.add 0 8, []) ∧
    ∃ t, stepWith Config.machine (ready 253 0xF4 24 0x0800A0) = .next t ∧ t.rs = .faulted :=
  ⟨by decide, by decide, ⟨_, rfl, by decide⟩, by decide, _, rfl, by decide⟩

/-- PRN at 254 leaves `pc` = 256; it serves PcFollowsTheTable too. -/
theorem witness_PcPastMemoryOnlyByAdvance :
    ∃ t, stepWith Config.machine (ready 254 0xF4 16 0x0047) = .next t ∧ t.rs ≠ .faulted ∧ 256 ≤ t.pc.toNat ∧
      (ready 254 0xF4 16 0x0047).pc.toNat < 256 := ⟨_, rfl, by decide, by decide, by decide⟩

theorem witness_OutputAndFaultRecordAreNeverRead :
    ∃ t, stepWith Config.machine (ready 254 0xF4 16 0x0047) = .next t := ⟨_, rfl⟩

/-- V111. -/
theorem witness_JumpToItselfNeverEnds :
    (ready 3 0xF4 16 0x0054).rs = .running ∧
    decode Config.machine (ready 3 0xF4 16 0x0054).codeBytes = .ok (.jmp 0, [0]) ∧
    ((ready 3 0xF4 16 0x0054).reg ⟨0, by decide⟩).toNat = (ready 3 0xF4 16 0x0054).pc.toNat := by decide

theorem witness_PushPopRoundTrip :
    (ready 0 1 16 0x0745).mem.wf ∧ 1 ≤ (ready 0 1 16 0x0745).sp.toNat ∧ 1 ≤ (ready 0 255 16 0x0745).sp.toNat ∧
    (ready 0 0 16 0x0745).sp.toNat = 0 := by decide

/-- CALL at 253, and the state it leaves. -/
theorem witness_ReturnGoesAfterTheCall :
    ∃ t, exec (.call 1) (ready 253 1 16 0x0150) = .next t ∧ t.rs ≠ .faulted ∧
      (ready 253 1 16 0x0150).rs = .running ∧ (ready 253 1 16 0x0150).mem.wf ∧
      t.mem.read t.sp.toNat = t.mem.read t.sp.toNat := ⟨_, rfl, by decide, by decide, by decide, rfl⟩

theorem witness_StoreIsSeenByReadsAndFetches :
    (ready 253 1 16 0x0150).mem.wf ∧ 2 < 3 ∧ (ready 253 1 16 0x0150).pc.toNat + 2 ≤ 255 := by decide

theorem witness_MemoryFormIsCanonical :
    Memory.wf [(0, 1), (255, 0xFF)] ∧ Memory.wf (Memory.write (Memory.write [] 255 0xFF) 0 1) ∧
    ∀ a < 256, Memory.read [(0, 1), (255, 0xFF)] a = (Memory.write (Memory.write [] 255 0xFF) 0 1).read a :=
  ⟨by decide, by decide, fun _ _ => rfl⟩

/-- It serves PortAccessesFollowTheTable too: CALL at 6, and PUSH at SP = 0. -/
theorem witness_PortWritesAreTheMemoryChange :
    (∃ t, stepWith Config.machine (ready 6 0xF4 16 0x0150) = .next t ∧ t.rs ≠ .faulted) ∧
    ∃ t, stepWith Config.machine (ready 6 0 16 0x0045) = .next t ∧ t.rs = .faulted :=
  ⟨⟨_, rfl, by decide⟩, _, rfl, by decide⟩

/-- V100 on the memory port (R67). -/
theorem test_port_trace_of_call :
    portTrace Config.machine (ready 6 0xF4 16 0x0150) = [.read 6 0x50, .read 7 0x01, .write 0xF3 8] := by decide

theorem witness_BootedMemoryIsTheImage : (List.replicate 256 (0x01#8)).length ≤ 256 := by rw [List.length_replicate]

theorem witness_StatusPortShowsTheRunState :
    (ready 254 0xF4 16 0x0047).Inv Config.machine ∧ (ready 254 0xF4 16 0x0047).rs = .running :=
  ⟨inv_ready, by decide⟩

theorem witness_FlagEncodingIsOneHot : Flag.equal.bits = Flag.equal.bits := rfl

end Sys2Proof.Tests
end

section
/-! PROOFS. Family memory: what a read and a fetch give after a write (R53, R64). -/

namespace Sys2Proof.Machine

/-- Memory after a store, at an address given as a number: the law of `Memory.write` at the level of the state (R53). -/
theorem read_store {s : State} (hs : s.mem.wf) (a v : Byte) (n : Nat) :
    (s.store a v).mem.read n = if n = a.toNat then v else s.mem.read n := by
  rw [store_mem, read_write hs.1]

theorem load_store_same {s : State} (hs : s.mem.wf) (a v : Byte) : (s.store a v).load a = v :=
  (read_store hs a v a.toNat).trans (if_pos rfl)

theorem load_store_other {s : State} (hs : s.mem.wf) {a b : Byte} (v : Byte) (h : b ≠ a) :
    (s.store a v).load b = s.load b :=
  (read_store hs a v b.toNat).trans (if_neg fun hn => h (BitVec.eq_of_toNat_eq hn))

/-- The fetch looks at the memory of the state it runs in, and at nothing kept from before (R64, R92). -/
theorem getElem?_codeBytes (s : State) {k : Nat} (hk : k < 3) (h : s.pc.toNat + k ≤ 255) :
    s.codeBytes[k]? = some (s.mem.read (s.pc.toNat + k)) :=
  (getElem?_bytesFrom s.mem s.pc.toNat 3 k).trans (if_pos ⟨hk, by omega⟩)

/-- Settles O51: a load and a fetch both read memory, where `read_store` says what the write has changed. -/
theorem storeIsSeenByReadsAndFetches : Obligations.StoreIsSeenByReadsAndFetches := by
  intro s a v hs
  refine ⟨load_store_same hs a v, fun b hb => load_store_other hs v hb, fun k hk hpc => ?_⟩
  rw [getElem?_codeBytes (s.store a v) hk hpc, read_store hs, store_pc]

end Sys2Proof.Machine
end

section
/-! PROOFS. Family dispatch loop: what `Decode` answers (R93), that the bytes an instruction was read from lie in
memory (R92, R95), and the default advance (R96). -/

namespace Sys2Proof

/-! ### The opcode -/

/-- No instruction of the configuration has the byte (R77). -/
theorem decodeOpcode_eq_none_iff {c : Config} {op : Byte} :
    decodeOpcode c op = none ↔ ∀ m ∈ c.present, c.opcodeMap.byte m ≠ op := by
  simp [decodeOpcode, List.find?_eq_none]

/-- Under R73 no two instructions share a byte, so the instruction that is found is the one that has the byte. -/
theorem decodeOpcode_eq_some_iff {c : Config} (hc : c.wf) {op : Byte} {m : Mnemonic} :
    decodeOpcode c op = some m ↔ m ∈ c.present ∧ c.opcodeMap.byte m = op := by
  refine ⟨decodeOpcode_some, fun ⟨hm, hop⟩ => ?_⟩
  cases hfound : decodeOpcode c op with
  | none => exact absurd hop (decodeOpcode_eq_none_iff.mp hfound m hm)
  | some m' =>
    obtain ⟨hm', hop'⟩ := decodeOpcode_some hfound
    rw [List.inj_on_of_nodup_map hc.1 hm' hm (hop'.trans hop.symm)]

/-! ### The bytes of a decoded instruction -/

/-- The operand bytes that were read are the instruction's, and it is the one its opcode named (R71, R95). -/
theorem decodeOperands_ok {m : Mnemonic} {bytes : List Byte} {i : Instr} {rest : List Byte}
    (h : decodeOperands m bytes = .ok (i, rest)) : i.mnemonic = m ∧ bytes = i.operands ++ rest := by
  cases m with
  | hlt | ret =>
    cases h
    exact ⟨rfl, rfl⟩
  | prn | push | pop | call | jmp | jeq | jne =>
    obtain ⟨b1, rfl, rfl⟩ := oneOperand_cases h
    exact ⟨rfl, rfl⟩
  | ldi | add | mul | cmp | sub | div =>
    obtain ⟨b1, b2, rfl, rfl⟩ := twoOperands_cases h
    exact ⟨rfl, rfl⟩

/-- The width counts the opcode and the operands (R70, R75). -/
theorem width_eq_length_operands (i : Instr) : i.width = i.operands.length + 1 := by
  cases i <;> rfl

/-- The bytes an instruction was read from are its encoding (R70, R75). -/
theorem eq_encode_of_decode_ok {c : Config} {bytes : List Byte} {i : Instr} {rest : List Byte}
    (h : decode c bytes = .ok (i, rest)) : bytes = encode c i ++ rest := by
  obtain ⟨op, m, tail, rfl, hop, hm⟩ := decode_ok_cases h
  obtain ⟨rfl, rfl⟩ := decodeOperands_ok hm
  rw [encode, (decodeOpcode_some hop).2, List.cons_append]

/-- Decoding uses as many bytes as the instruction is wide (R75). -/
theorem length_of_decode_ok {c : Config} {bytes : List Byte} {i : Instr} {rest : List Byte}
    (h : decode c bytes = .ok (i, rest)) : bytes.length = i.width + rest.length := by
  rw [eq_encode_of_decode_ok h, List.length_append, encode, List.length_cons, width_eq_length_operands]

end Sys2Proof

namespace Sys2Proof.Machine

/-! ### An unassigned opcode -/

theorem opcodeAtPc_eq_read {s : State} (h : s.pc.toNat ≤ 255) : s.opcodeAtPc = s.mem.read s.pc.toNat :=
  if_pos (by omega)

/-- The opcode is the byte at `pc` (R92). -/
theorem codeBytes_eq_cons {s : State} (h : s.pc.toNat ≤ 255) :
    s.codeBytes = s.mem.read s.pc.toNat :: bytesFrom s.mem (s.pc.toNat + 1) 2 := if_pos (by omega)

/-- A running block at an unassigned byte takes UnknownOpcodeFault with the byte as FAULT_INFO (R93). -/
theorem stepWith_unknownOpcode {c : Config} {s : State} (hs : s.rs = .running) (hpc : s.pc.toNat ≤ 255)
    (h : decodeOpcode c (s.mem.read s.pc.toNat) = none) :
    stepWith c s = .next (s.takeFault .unknownOpcode ((s.mem.read s.pc.toNat).setWidth 9)) := by
  rw [stepWith_running hs, codeBytes_eq_cons hpc, decode_cons, h]
  rfl

/-- Settles O3: the map is injective on the instructions the configuration has, and at an unassigned byte the step
takes the fault of R93. -/
theorem decodeIsTheOpcodeMap : Obligations.DecodeIsTheOpcodeMap := by
  intro c hc op
  refine ⟨fun m => decodeOpcode_eq_some_iff hc, ?_⟩
  rintro s hs hpc rfl hnone
  exact ⟨_, stepWith_unknownOpcode hs hpc (decodeOpcode_eq_none_iff.mpr hnone), rfl, rfl, opcodeAtPc_eq_read hpc, rfl⟩

/-! ### The default advance -/

/-- A decoded instruction ends in memory, so `pc` + its width is at most 256 (R92, R95). -/
theorem pc_add_width_le_of_decode_ok {c : Config} {s : State} {i : Instr} {rest : List Byte}
    (h : decode c s.codeBytes = .ok (i, rest)) : s.pc.toNat + i.width ≤ 256 := by
  have hlen : min 3 (256 - s.pc.toNat) = i.width + rest.length :=
    (length_bytesFrom s.mem s.pc.toNat 3).symm.trans (length_of_decode_ok h)
  have hpos := width_eq_length_operands i
  omega

/-- A step at bytes that decode is the instruction's meaning, in a running block (R91). -/
theorem exec_of_stepWith {c : Config} {s t : State} {i : Instr} {rest : List Byte} (h : stepWith c s = .next t)
    (hd : decode c s.codeBytes = .ok (i, rest)) : s.rs = .running ∧ exec i s = .next t := by
  obtain ⟨hs, -⟩ := stepWith_cases h
  rw [stepWith_running hs, hd] at h
  exact ⟨hs, h⟩

/-- The two ways an instruction with the default advance can end: `w` bytes further on in the same run state, or at a
fault (R96). -/
def AdvancesOrFaults (w : Nat) (s t : State) : Prop :=
  (t.pc = s.pc + BitVec.ofNat 9 w ∧ t.rs = s.rs) ∨ ∃ cause info, t = s.takeFault cause info

theorem execAlu_advancesOrFaults {op : BitVec 4} {ra rb : Byte} {s t : State} (h : execAlu op ra rb s = .next t) :
    AdvancesOrFaults 3 s t := by
  rcases execAlu_cases h with ⟨b, -, ht⟩ | ⟨ha, hb, h⟩
  · exact .inr ⟨_, _, ht⟩
  · rcases writeAluResult_cases h with ⟨v, -, rfl⟩ | ⟨f, -, rfl⟩ | ⟨-, ht⟩ | ⟨-, ht⟩
    · exact .inl ⟨rfl, rfl⟩
    · exact .inl ⟨rfl, rfl⟩
    · exact .inr ⟨_, _, ht⟩
    · exact .inr ⟨_, _, ht⟩

theorem exec_advancesOrFaults {i : Instr} {s t : State} (hi : i.setsPcItself = false) (h : exec i s = .next t) :
    AdvancesOrFaults i.width s t := by
  cases i with
  | hlt | call | ret | jmp | jeq | jne => cases hi
  | add | mul | cmp | sub | div => exact execAlu_advancesOrFaults h
  | ldi r imm8 =>
    rcases execLdi_cases h with ⟨hr, rfl⟩ | ⟨-, ht⟩
    · exact .inl ⟨rfl, rfl⟩
    · exact .inr ⟨_, _, ht⟩
  | prn r =>
    rcases execPrn_cases h with ⟨hr, rfl⟩ | ⟨-, ht⟩
    · exact .inl ⟨rfl, rfl⟩
    · exact .inr ⟨_, _, ht⟩
  | push r =>
    rcases execPush_cases h with ⟨hr, -, rfl⟩ | ⟨info, ht⟩
    · exact .inl ⟨rfl, rfl⟩
    · exact .inr ⟨_, info, ht⟩
  | pop r =>
    rcases execPop_cases h with ⟨hr, -, rfl⟩ | ⟨info, ht⟩
    · exact .inl ⟨rfl, rfl⟩
    · exact .inr ⟨_, info, ht⟩

/-- Nine bits hold every sum up to 256, so the advance of a decoded instruction does not wrap (R23, R96). -/
theorem toNat_pc_add {p : Word9} {w : Nat} (h : p.toNat + w ≤ 256) : (p + BitVec.ofNat 9 w).toNat = p.toNat + w := by
  rw [BitVec.toNat_add, BitVec.toNat_ofNat]
  omega

/-- Settles O44: the instruction advances or faults, and the bytes it was decoded from end in memory. -/
theorem defaultAdvance : Obligations.DefaultAdvance := by
  intro c s t i rest h hd hi
  obtain ⟨hs, hexec⟩ := exec_of_stepWith h hd
  rcases exec_advancesOrFaults hi hexec with ⟨hpc, hrs⟩ | ⟨cause, info, rfl⟩
  · refine ⟨fun _ => ?_, fun hf => ?_⟩
    · rw [hpc, toNat_pc_add (pc_add_width_le_of_decode_ok hd)]
    · rw [hrs, hs] at hf
      cases hf
  · exact ⟨fun hf => absurd rfl hf, fun _ => rfl⟩

end Sys2Proof.Machine
end

section
/-! PROOFS. Family ALU: the unsigned three-way comparison, and the results of ADD, MUL and CMP (R122, R124, R126). -/

namespace Sys2Proof.Machine

theorem compareFlag_self (a : Byte) : compareFlag a a = .equal := if_pos rfl

theorem compareFlag_of_lt {a b : Byte} (h : a.toNat < b.toNat) : compareFlag a b = .lessThan := by
  rw [compareFlag, if_neg (by omega), if_pos h]

theorem compareFlag_of_gt {a b : Byte} (h : b.toNat < a.toNat) : compareFlag a b = .greaterThan := by
  rw [compareFlag, if_neg (by omega), if_neg (by omega)]

/-- Settles O34: ADD and MUL narrow the sum and the product to a byte, and CMP answers the flag of the comparison. -/
theorem aluAddMulAndCmp : Obligations.AluAddMulAndCmp := by
  intro a b
  refine ⟨⟨_, alu_add a b, narrow_toNat _⟩, ⟨_, alu_mul a b, narrow_toNat _⟩, ?_, fun hlt => ?_, fun hgt => ?_⟩
  · rintro rfl
    rw [alu_cmp, compareFlag_self]
  · rw [alu_cmp, compareFlag_of_lt hlt]
  · rw [alu_cmp, compareFlag_of_gt hgt]

end Sys2Proof.Machine
end

section
/-! PROOFS. Family exceptions: no program reaches UnsupportedALUOperationFault (R127, R173). -/

namespace Sys2Proof.Machine

theorem code_eq_two_iff (cause : Cause) : cause.code = 2#3 ↔ cause = .unsupportedAluOperation := by
  cases cause <;> decide

/-- The selectors that have an operation (R121). -/
def aluSelectors : List (BitVec 4) := [aluAdd, aluSub, aluMul, aluDiv, aluCmp]

/-- The ALU refuses every selector without an operation, and no other (R127). -/
theorem alu_eq_unsupported_iff (op : BitVec 4) (a b : Byte) :
    alu op a b = .fault .unsupportedOperation ↔ op ∉ aluSelectors := by
  unfold alu
  split_ifs <;> simp_all [aluSelectors]

/-- The state a fault leaves, for a fault other than UnsupportedALUOperationFault: one a program can reach (R173). -/
def ReachableFault (s t : State) : Prop :=
  ∃ cause info, cause ≠ .unsupportedAluOperation ∧ t = s.takeFault cause info

theorem reachableFault_addressOutOfRange {s t : State} {info : Word9} (h : t = s.takeFault .addressOutOfRange info) :
    ReachableFault s t := ⟨_, info, by decide, h⟩

/-- With a selector that has an operation, a register index and a zero divisor are all that can fault. -/
theorem execAlu_reachableFault {op : BitVec 4} (hop : op ∈ aluSelectors) {ra rb : Byte} {s t : State}
    (hs : s.rs ≠ .faulted) (h : execAlu op ra rb s = .next t) (hf : t.rs = .faulted) : ReachableFault s t := by
  rcases execAlu_cases h with ⟨b, -, ht⟩ | ⟨ha, hb, h⟩
  · exact reachableFault_addressOutOfRange ht
  · rcases writeAluResult_cases h with ⟨v, -, rfl⟩ | ⟨f, -, rfl⟩ | ⟨hr, -⟩ | ⟨-, ht⟩
    · exact absurd hf hs
    · exact absurd hf hs
    · exact absurd hop ((alu_eq_unsupported_iff op _ _).mp hr)
    · exact ⟨_, _, by decide, ht⟩

theorem jumpIf_reachableFault {taken : Bool} {r : Byte} {s t : State} (hs : s.rs ≠ .faulted)
    (h : jumpIf taken r s = .next t) (hf : t.rs = .faulted) : ReachableFault s t := by
  rcases jumpIf_cases h with ⟨hr, rfl⟩ | ⟨-, ht⟩
  · cases taken <;> exact absurd hf hs
  · exact reachableFault_addressOutOfRange ht

/-- Every instruction of format RR drives a selector that has an operation, and every other check raises
AddressOutOfRangeFault. -/
theorem exec_reachableFault {i : Instr} {s t : State} (hs : s.rs ≠ .faulted) (h : exec i s = .next t)
    (hf : t.rs = .faulted) : ReachableFault s t := by
  cases i with
  | add | mul | cmp | sub | div => exact execAlu_reachableFault (by decide) hs h hf
  | jeq | jne => exact jumpIf_reachableFault hs h hf
  | hlt =>
    obtain rfl := execHlt_cases h
    cases hf
  | ldi r imm8 =>
    rcases execLdi_cases h with ⟨hr, rfl⟩ | ⟨-, ht⟩
    · exact absurd hf hs
    · exact reachableFault_addressOutOfRange ht
  | prn r =>
    rcases execPrn_cases h with ⟨hr, rfl⟩ | ⟨-, ht⟩
    · exact absurd hf hs
    · exact reachableFault_addressOutOfRange ht
  | push r =>
    rcases execPush_cases h with ⟨hr, -, rfl⟩ | ⟨info, ht⟩
    · exact absurd hf hs
    · exact reachableFault_addressOutOfRange ht
  | pop r =>
    rcases execPop_cases h with ⟨hr, -, rfl⟩ | ⟨info, ht⟩
    · exact absurd hf hs
    · exact reachableFault_addressOutOfRange ht
  | call r =>
    rcases execCall_cases h with ⟨hr, -, -, rfl⟩ | ⟨info, ht⟩
    · exact absurd hf hs
    · exact reachableFault_addressOutOfRange ht
  | ret =>
    rcases execRet_cases h with ⟨-, rfl⟩ | ⟨info, ht⟩
    · exact absurd hf hs
    · exact reachableFault_addressOutOfRange ht
  | jmp r =>
    rcases execJmp_cases h with ⟨hr, rfl⟩ | ⟨-, ht⟩
    · exact absurd hf hs
    · exact reachableFault_addressOutOfRange ht

/-- A failed fetch or decode is an address or an unknown opcode, so what is left is the instruction's own fault. -/
theorem stepWith_reachableFault {c : Config} {s t : State} (h : stepWith c s = .next t) (hf : t.rs = .faulted) :
    ReachableFault s t := by
  obtain ⟨hs, ⟨e, -, he⟩ | ⟨i, rest, -, hexec⟩⟩ := stepWith_cases h
  · rcases raiseDecodeError_cases he with ⟨k, -, ht⟩ | ⟨op, -, ht⟩
    · exact reachableFault_addressOutOfRange ht
    · exact ⟨_, _, by decide, ht⟩
  · exact exec_reachableFault (by rw [hs]; decide) hexec hf

/-- Settles O15: the selectors that instructions drive all have an operation, so a step records another fault's code. -/
theorem unsupportedAluFaultIsUnreachable : Obligations.UnsupportedAluFaultIsUnreachable := by
  refine ⟨rfl, alu_eq_unsupported_iff, fun c s t h hf hcode => ?_⟩
  obtain ⟨cause, info, hcause, rfl⟩ := stepWith_reachableFault h hf
  exact hcause ((code_eq_two_iff cause).mp hcode)

end Sys2Proof.Machine
end

section
/-! PROOFS. Family reset and hazards: only a CMP that completes changes FL (R192). -/

namespace Sys2Proof.Machine

/-- The ALU answers a flag for the selector of CMP, and for no other (R120, R126). -/
theorem alu_eq_flag_iff (op : BitVec 4) (a b : Byte) (f : Flag) :
    alu op a b = .flag f ↔ op = aluCmp ∧ compareFlag a b = f := by
  constructor
  · intro h
    unfold alu at h
    split_ifs at h with _ _ _ _ _ hcmp
    exact ⟨hcmp, AluResult.flag.inj h⟩
  · rintro ⟨rfl, rfl⟩
    exact alu_cmp a b

/-- With any other selector, an instruction of format RR writes regA or faults (R120). -/
theorem execAlu_fl {op : BitVec 4} (hop : op ≠ aluCmp) {ra rb : Byte} {s t : State}
    (h : execAlu op ra rb s = .next t) : t.fl = s.fl := by
  rcases execAlu_cases h with ⟨b, -, rfl⟩ | ⟨ha, hb, h⟩
  · rfl
  · rcases writeAluResult_cases h with ⟨v, -, rfl⟩ | ⟨f, hf, -⟩ | ⟨-, rfl⟩ | ⟨-, rfl⟩
    · rfl
    · exact absurd ((alu_eq_flag_iff _ _ _ _).mp hf).1 hop
    · rfl
    · rfl

theorem jumpIf_fl {taken : Bool} {r : Byte} {s t : State} (h : jumpIf taken r s = .next t) : t.fl = s.fl := by
  rcases jumpIf_cases h with ⟨hr, rfl⟩ | ⟨-, rfl⟩
  · cases taken <;> rfl
  · rfl

/-- CMP leaves the run state as it is, or faults and keeps FL (R131). -/
theorem execCmp_fl_or_rs {ra rb : Byte} {s t : State} (h : execCmp ra rb s = .next t) :
    t.fl = s.fl ∨ t.rs = s.rs := by
  rcases execCmp_cases h with ⟨ha, hb, rfl⟩ | ⟨b, -, rfl⟩
  · exact .inr rfl
  · exact .inl rfl

/-- An instruction that may end with another FL is a CMP, and it has then left the run state as it was (R192). -/
theorem exec_fl_or_cmp {i : Instr} {s t : State} (h : exec i s = .next t) :
    t.fl = s.fl ∨ (t.rs = s.rs ∧ ∃ ra rb, i = .cmp ra rb) := by
  cases i with
  | cmp ra rb => exact (execCmp_fl_or_rs h).imp id fun hrs => ⟨hrs, ra, rb, rfl⟩
  | add | mul | sub | div => exact .inl (execAlu_fl (by decide) h)
  | jeq | jne => exact .inl (jumpIf_fl h)
  | hlt =>
    obtain rfl := execHlt_cases h
    exact .inl rfl
  | ldi => rcases execLdi_cases h with ⟨_, rfl⟩ | ⟨-, rfl⟩ <;> exact .inl rfl
  | prn => rcases execPrn_cases h with ⟨_, rfl⟩ | ⟨-, rfl⟩ <;> exact .inl rfl
  | push => rcases execPush_cases h with ⟨_, -, rfl⟩ | ⟨_, rfl⟩ <;> exact .inl rfl
  | pop => rcases execPop_cases h with ⟨_, -, rfl⟩ | ⟨_, rfl⟩ <;> exact .inl rfl
  | call => rcases execCall_cases h with ⟨_, -, -, rfl⟩ | ⟨_, rfl⟩ <;> exact .inl rfl
  | ret => rcases execRet_cases h with ⟨-, rfl⟩ | ⟨_, rfl⟩ <;> exact .inl rfl
  | jmp => rcases execJmp_cases h with ⟨_, rfl⟩ | ⟨-, rfl⟩ <;> exact .inl rfl

theorem raiseDecodeError_fl {s t : State} {e : DecodeError} (h : raiseDecodeError s e = .next t) : t.fl = s.fl := by
  rcases raiseDecodeError_cases h with ⟨k, -, rfl⟩ | ⟨op, -, rfl⟩ <;> rfl

/-- Settles O40: a failed fetch or decode keeps FL, and so does every instruction but a CMP that completes. -/
theorem flagChangesOnlyByCmp : Obligations.FlagChangesOnlyByCmp := by
  intro c s t h hfl
  obtain ⟨hs, ⟨e, -, he⟩ | ⟨i, rest, hd, hexec⟩⟩ := stepWith_cases h
  · exact absurd (raiseDecodeError_fl he) hfl
  · obtain ⟨hrs, ra, rb, rfl⟩ := (exec_fl_or_cmp hexec).resolve_left hfl
    exact ⟨hrs.trans hs, ra, rb, rest, hd⟩

end Sys2Proof.Machine
end

section
/-! PROOFS. Family other, encoding: the round trip in both directions (R70 to R75), and the facts of the default map
(R72, R73, R77, R84). -/

namespace Sys2Proof

/-! ### The round trip -/

/-- Reading the operands of an instruction under its own mnemonic gives it back. -/
theorem decodeOperands_operands (i : Instr) (rest : List Byte) :
    decodeOperands i.mnemonic (i.operands ++ rest) = .ok (i, rest) := by
  cases i <;> rfl

theorem presentIn_iff {i : Instr} {c : Config} : i.presentIn c = true ↔ i.mnemonic ∈ c.present :=
  List.contains_iff_mem

/-- Settles O1: under R73 the opcode finds the mnemonic it came from, and the operand bytes are read back. -/
theorem decodeEncodeRoundTrip : Obligations.DecodeEncodeRoundTrip := by
  intro c hc i hi rest
  have hop : decodeOpcode c (c.opcodeMap.byte i.mnemonic) = some i.mnemonic :=
    (decodeOpcode_eq_some_iff hc).mpr ⟨presentIn_iff.mp hi, rfl⟩
  rw [encode, List.cons_append, decode_cons, hop]
  exact decodeOperands_operands i rest

/-- The opcode of a decoded instruction is the first byte. -/
theorem decodeOpcode_of_decode_ok {c : Config} {op : Byte} {bytes : List Byte} {i : Instr} {rest : List Byte}
    (h : decode c (op :: bytes) = .ok (i, rest)) : decodeOpcode c op = some i.mnemonic := by
  obtain ⟨op', m, tail, hcons, hop, hm⟩ := decode_ok_cases h
  obtain ⟨rfl, rfl⟩ := List.cons.inj hcons
  rw [hop, (decodeOperands_ok hm).1]

/-- Only an instruction the configuration has is decoded (R72). -/
theorem presentIn_of_decode_ok {c : Config} {bytes : List Byte} {i : Instr} {rest : List Byte}
    (h : decode c bytes = .ok (i, rest)) : i.presentIn c = true := by
  obtain ⟨op, m, tail, rfl, -, -⟩ := decode_ok_cases h
  exact presentIn_iff.mpr (decodeOpcode_some (decodeOpcode_of_decode_ok h)).1

/-- Settles O2: the bytes are the encoding, their opcode was found among the instructions present, and the width counts
them. -/
theorem decodedBytesAreTheEncoding : Obligations.DecodedBytesAreTheEncoding := fun _ _ _ _ h =>
  ⟨eq_encode_of_decode_ok h, presentIn_of_decode_ok h, length_of_decode_ok h⟩

/-! ### The default map -/

/-- Settles O5: the bytes of R72 are compared with one another and with 0xFF; the formats are read off the table. -/
theorem defaultMapSatisfiesConstraints : Obligations.DefaultMapSatisfiesConstraints :=
  ⟨by decide, by decide, by decide⟩

/-- A byte is legal when it is the byte of an instruction the configuration has (R77). -/
theorem decodeOpcode_isSome_iff {c : Config} {op : Byte} :
    (decodeOpcode c op).isSome ↔ op ∈ c.present.map c.opcodeMap.byte := by
  rw [← Option.ne_none_iff_isSome, Ne, decodeOpcode_eq_none_iff]
  simp

/-- The legal bytes are those of the instructions, each once, so the others of the 256 are illegal (R73, R77). -/
theorem length_illegal_add_length_present {c : Config} (hc : c.wf) :
    ((List.range 256).filter fun n => (decodeOpcode c (BitVec.ofNat 8 n)).isNone).length + c.present.length = 256 := by
  have hlegal : ((List.range 256).filter fun n => (decodeOpcode c (BitVec.ofNat 8 n)).isSome).Perm
      ((c.present.map c.opcodeMap.byte).map BitVec.toNat) := by
    refine (List.perm_ext_iff_of_nodup (List.nodup_range.filter _)
      (hc.1.map fun _ _ => BitVec.eq_of_toNat_eq)).mpr fun n => ?_
    rw [List.mem_filter, decodeOpcode_isSome_iff, List.mem_range,
      List.mem_map (f := BitVec.toNat)]
    constructor
    · rintro ⟨hn, hmem⟩
      exact ⟨_, hmem, BitVec.toNat_ofNat n 8 ▸ Nat.mod_eq_of_lt hn⟩
    · rintro ⟨op, hmem, rfl⟩
      exact ⟨op.isLt, by rwa [BitVec.ofNat_toNat, BitVec.setWidth_eq]⟩
  have hsplit := List.length_eq_length_filter_add (l := List.range 256)
    fun n => (decodeOpcode c (BitVec.ofNat 8 n)).isNone
  simp only [Option.not_isNone] at hsplit
  have hlen := hlegal.length_eq
  rw [List.length_map, List.length_map] at hlen
  rw [← hlen, ← hsplit, List.length_range]

/-- Settles O6: of the 256 bytes 13 are legal, or 15, and the named ones are looked up. -/
theorem illegalOpcodeBytes : Obligations.IllegalOpcodeBytes := by
  refine ⟨?_, ?_, by decide, by decide, by decide, by decide, by decide⟩
  · exact Nat.add_right_cancel (length_illegal_add_length_present (c := Config.specDefault) (by decide))
  · exact Nat.add_right_cancel (length_illegal_add_length_present (c := Config.machine) (by decide))

/-- Settles O7: the decoder runs on the bytes of R84. -/
theorem encodingExamplesDecode : Obligations.EncodingExamplesDecode := by
  refine ⟨rfl, rfl, rfl, rfl, rfl, rfl, rfl, ?_, ?_⟩ <;> decide

end Sys2Proof
end

section
/-! PROOFS. Family other, what each instruction does: `Completes` lists how each of the fifteen can end without a fault,
`Completes.exec` ties it to `exec`, and the completions of R110 to R155 are read off it. -/

namespace Sys2Proof.Machine

/-! ### Bytes beside SP, and register bytes as indices -/

theorem toNat_sub_one {v : Byte} (h : v.toNat ≠ 0) : (v - 1#8).toNat = v.toNat - 1 := by
  bv_omega

theorem toNat_add_one {v : Byte} (h : v.toNat + 1 ≤ 255) : (v + 1#8).toNat = v.toNat + 1 := by
  bv_omega

theorem narrow_sub_one {v : Byte} (h : v.toNat ≠ 0) : narrow (v.toNat - 1) = v - 1#8 := by
  apply BitVec.eq_of_toNat_eq
  rw [narrow_toNat, toNat_sub_one h]
  omega

theorem narrow_add_one {v : Byte} (h : v.toNat + 1 ≤ 255) : narrow (v.toNat + 1) = v + 1#8 := by
  apply BitVec.eq_of_toNat_eq
  rw [narrow_toNat, toNat_add_one h]
  omega

theorem toNat_ne_zero_iff {v : Byte} : v.toNat ≠ 0 ↔ v ≠ 0#8 := by
  bv_omega

theorem toNat_add_one_le_iff {v : Byte} : v.toNat + 1 ≤ 255 ↔ v ≠ 0xFF#8 := by
  bv_omega

theorem toNat_eq_seven_iff {r : Byte} : r.toNat = 7 ↔ r = 7#8 := by
  bv_omega

/-- The register byte 7 names SP (R21). -/
theorem mk_eq_spIndex_iff {r : Byte} (hr : r.toNat < 8) : (⟨r.toNat, hr⟩ : Fin 8) = spIndex ↔ r = 7#8 :=
  Fin.ext_iff.trans toNat_eq_seven_iff

/-- Reading a register after SP has moved, with the register given by its byte (R141, R151). -/
theorem reg_setSp_mk (s : State) (v : Byte) {r : Byte} (hr : r.toNat < 8) :
    (s.setSp v).reg ⟨r.toNat, hr⟩ = if r = 7#8 then v else s.reg ⟨r.toNat, hr⟩ := by
  simp only [reg_setSp, mk_eq_spIndex_iff]

/-! ### How an instruction completes -/

/-- The first half of a POP: the register holds the byte at SP, and SP has not moved (R142). -/
def State.popInto (s : State) (i : Fin 8) : State := s.setReg i (s.load s.sp)

theorem sp_popInto_mk (s : State) {r : Byte} (hr : r.toNat < 8) :
    (s.popInto ⟨r.toNat, hr⟩).sp = if r = 7#8 then s.load s.sp else s.sp := by
  simp only [State.popInto, sp_setReg, mk_eq_spIndex_iff]

/-- `Completes s i t`: instruction `i` runs in `s` without a fault and leaves `t`. -/
inductive Completes (s : State) : Instr → State → Prop
  | hlt : Completes s .hlt s.halt
  | ldi {r : Byte} (imm8 : Byte) (hr : r.toNat < 8) :
      Completes s (.ldi r imm8) ((s.setReg ⟨r.toNat, hr⟩ imm8).advance 3)
  | prn {r : Byte} (hr : r.toNat < 8) : Completes s (.prn r) ((s.emit (s.reg ⟨r.toNat, hr⟩)).advance 2)
  | add {ra rb : Byte} (ha : ra.toNat < 8) (hb : rb.toNat < 8) :
      Completes s (.add ra rb) ((s.setReg ⟨ra.toNat, ha⟩
        (narrow ((s.reg ⟨ra.toNat, ha⟩).toNat + (s.reg ⟨rb.toNat, hb⟩).toNat))).advance 3)
  | mul {ra rb : Byte} (ha : ra.toNat < 8) (hb : rb.toNat < 8) :
      Completes s (.mul ra rb) ((s.setReg ⟨ra.toNat, ha⟩
        (narrow ((s.reg ⟨ra.toNat, ha⟩).toNat * (s.reg ⟨rb.toNat, hb⟩).toNat))).advance 3)
  | sub {ra rb : Byte} (ha : ra.toNat < 8) (hb : rb.toNat < 8) :
      Completes s (.sub ra rb) ((s.setReg ⟨ra.toNat, ha⟩
        (BitVec.ofInt 8 (((s.reg ⟨ra.toNat, ha⟩).toNat : Int) - (s.reg ⟨rb.toNat, hb⟩).toNat))).advance 3)
  | div {ra rb : Byte} (ha : ra.toNat < 8) (hb : rb.toNat < 8) (hz : (s.reg ⟨rb.toNat, hb⟩).toNat ≠ 0) :
      Completes s (.div ra rb) ((s.setReg ⟨ra.toNat, ha⟩
        (narrow ((s.reg ⟨ra.toNat, ha⟩).toNat / (s.reg ⟨rb.toNat, hb⟩).toNat))).advance 3)
  | cmp {ra rb : Byte} (ha : ra.toNat < 8) (hb : rb.toNat < 8) :
      Completes s (.cmp ra rb)
        ((s.setFl (compareFlag (s.reg ⟨ra.toNat, ha⟩) (s.reg ⟨rb.toNat, hb⟩))).advance 3)
  | push {r : Byte} (hr : r.toNat < 8) (hsp : s.sp.toNat ≠ 0) :
      Completes s (.push r) ((s.pushByte (s.sp - 1#8) fun u => u.reg ⟨r.toNat, hr⟩).advance 2)
  | pop {r : Byte} (hr : r.toNat < 8) (hsp : (s.popInto ⟨r.toNat, hr⟩).sp.toNat + 1 ≤ 255) :
      Completes s (.pop r)
        (((s.popInto ⟨r.toNat, hr⟩).setSp ((s.popInto ⟨r.toNat, hr⟩).sp + 1#8)).advance 2)
  | call {r : Byte} (hr : r.toNat < 8) (hpc : s.pc.toNat + 2 ≤ 255) (hsp : s.sp.toNat ≠ 0) :
      Completes s (.call r) ((s.pushByte (s.sp - 1#8) fun _ => narrow (s.pc.toNat + 2)).jumpTo
        ((s.setSp (s.sp - 1#8)).reg ⟨r.toNat, hr⟩))
  | ret (hsp : s.sp.toNat + 1 ≤ 255) : Completes s .ret ((s.setSp (s.sp + 1#8)).jumpTo (s.load s.sp))
  | jmp {r : Byte} (hr : r.toNat < 8) : Completes s (.jmp r) (s.jumpTo (s.reg ⟨r.toNat, hr⟩))
  | jeqTaken {r : Byte} (hr : r.toNat < 8) (hfl : s.fl = .equal) :
      Completes s (.jeq r) (s.jumpTo (s.reg ⟨r.toNat, hr⟩))
  | jeqPassed {r : Byte} (hr : r.toNat < 8) (hfl : s.fl ≠ .equal) : Completes s (.jeq r) (s.advance 2)
  | jneTaken {r : Byte} (hr : r.toNat < 8) (hfl : s.fl ≠ .equal) :
      Completes s (.jne r) (s.jumpTo (s.reg ⟨r.toNat, hr⟩))
  | jnePassed {r : Byte} (hr : r.toNat < 8) (hfl : s.fl = .equal) : Completes s (.jne r) (s.advance 2)

/-- Format RR with both indices valid: the ALU's answer is written (R120). -/
theorem execAlu_ok (op : BitVec 4) (s : State) {ra rb : Byte} (ha : ra.toNat < 8) (hb : rb.toNat < 8) :
    execAlu op ra rb s = writeAluResult s op ⟨ra.toNat, ha⟩ ⟨rb.toNat, hb⟩
      (alu op (s.reg ⟨ra.toNat, ha⟩) (s.reg ⟨rb.toNat, hb⟩)) := withRegs_ok s ha hb _

theorem isEqual_eq_false {f : Flag} (h : f ≠ .equal) : f.isEqual = false :=
  Bool.eq_false_iff.mpr fun he => h ((isEqual_iff f).mp he)

/-- `exec` does what `Completes` says. -/
theorem Completes.exec {s t : State} {i : Instr} (h : Completes s i t) : exec i s = .next t := by
  cases h with
  | hlt => rfl
  | ldi imm8 hr => rw [exec_ldi, withReg_ok s hr]
  | prn hr => rw [exec_prn, withReg_ok s hr]
  | add ha hb => rw [exec_add, execAlu_ok _ _ ha hb, alu_add, writeAluResult]
  | mul ha hb => rw [exec_mul, execAlu_ok _ _ ha hb, alu_mul, writeAluResult]
  | sub ha hb => rw [exec_sub, execAlu_ok _ _ ha hb, alu_sub, writeAluResult]
  | div ha hb hz => rw [exec_div, execAlu_ok _ _ ha hb, alu_div, if_neg hz, writeAluResult]
  | cmp ha hb => rw [exec_cmp, execAlu_ok _ _ ha hb, alu_cmp, writeAluResult]
  | push hr hsp => rw [exec_push, withReg_ok s hr, withPushCheck_ok s hsp, narrow_sub_one hsp]
  | pop hr hsp =>
    rw [State.popInto] at hsp
    rw [exec_pop, withReg_ok s hr, withPopCheck_ok s hsp, narrow_add_one hsp, State.popInto]
  | call hr hpc hsp =>
    rw [exec_call, withReg_ok s hr, withReturnAddress_ok s hpc, withPushCheck_ok s hsp, narrow_sub_one hsp,
      pushByte_reg]
  | ret hsp => rw [exec_ret, withPopCheck_ok s hsp, narrow_add_one hsp]
  | jmp hr => rw [exec_jmp, withReg_ok s hr]
  | jeqTaken hr hfl => rw [exec_jeq, withReg_ok s hr, if_pos ((isEqual_iff _).mpr hfl)]
  | jeqPassed hr hfl => rw [exec_jeq, withReg_ok s hr, isEqual_eq_false hfl, if_neg Bool.false_ne_true]
  | jneTaken hr hfl => rw [exec_jne, withReg_ok s hr, isEqual_eq_false hfl, Bool.not_false, if_pos rfl]
  | jnePassed hr hfl =>
    rw [exec_jne, withReg_ok s hr, (isEqual_iff _).mpr hfl, Bool.not_true, if_neg Bool.false_ne_true]

/-! ### Completions: HLT, LDI, PRN, the ALU instructions and the jumps -/

/-- Settles O19. -/
theorem hltHalts : Obligations.HltHalts := fun _ => Completes.hlt.exec

/-- Settles O20: a register read after it was written holds the value written. -/
theorem ldiLoadsTheImmediate : Obligations.LdiLoadsTheImmediate := fun s _ imm8 hr =>
  ⟨_, (Completes.ldi imm8 hr).exec, reg_setReg_same s _ imm8, rfl⟩

/-- Settles O21. -/
theorem prnEmitsTheRegister : Obligations.PrnEmitsTheRegister := fun _ _ hr => (Completes.prn hr).exec

/-- Settles O22: the sum narrowed to a byte. -/
theorem addWrapsModulo256 : Obligations.AddWrapsModulo256 := fun _ _ _ ha hb =>
  ⟨_, narrow_toNat _, (Completes.add ha hb).exec⟩

/-- Settles O23: the product narrowed to a byte. -/
theorem mulKeepsTheLowByte : Obligations.MulKeepsTheLowByte := fun _ _ _ ha hb =>
  ⟨_, narrow_toNat _, (Completes.mul ha hb).exec⟩

/-- The byte of a difference of bytes is the difference modulo 256 (R123). -/
theorem toNat_ofInt_sub (a b : Byte) :
    ((BitVec.ofInt 8 ((a.toNat : Int) - b.toNat)).toNat : Int) = ((a.toNat : Int) - b.toNat) % 256 := by
  rw [BitVec.toNat_ofInt]
  omega

/-- Settles O24: a negative difference has 256 added. -/
theorem subWrapsModulo256 : Obligations.SubWrapsModulo256 := by
  intro s ra rb ha hb
  refine ⟨_, ?_, (Completes.sub ha hb).exec⟩
  have hdiff := toNat_ofInt_sub (s.reg ⟨ra.toNat, ha⟩) (s.reg ⟨rb.toNat, hb⟩)
  have hlt := (s.reg ⟨rb.toNat, hb⟩).isLt
  omega

/-- A quotient of bytes fits in a byte (R125). -/
theorem toNat_narrow_div (a b : Byte) : (narrow (a.toNat / b.toNat)).toNat = a.toNat / b.toNat := by
  rw [narrow_toNat]
  exact Nat.mod_eq_of_lt ((Nat.div_le_self _ _).trans_lt a.isLt)

/-- Settles O25: the quotient is no larger than the dividend, so narrowing keeps it. -/
theorem divTruncates : Obligations.DivTruncates := fun _ _ _ ha hb hz =>
  ⟨_, toNat_narrow_div _ _, (Completes.div ha hb (toNat_ne_zero_iff.mpr hz)).exec⟩

/-- The comparison answers one of three flags, each exactly when the values compare that way (R126). -/
theorem compareFlag_iff (a b : Byte) :
    (compareFlag a b = .equal ↔ a = b) ∧ (compareFlag a b = .lessThan ↔ a.toNat < b.toNat) ∧
      (compareFlag a b = .greaterThan ↔ b.toNat < a.toNat) ∧ compareFlag a b ≠ .unset := by
  rcases lt_trichotomy a.toNat b.toNat with hlt | heq | hgt
  · have hne : a ≠ b := fun hab => hlt.ne (congrArg BitVec.toNat hab)
    simp [compareFlag_of_lt hlt, hne, hlt, hlt.le]
  · obtain rfl := BitVec.eq_of_toNat_eq heq
    simp [compareFlag_self]
  · have hne : a ≠ b := fun hab => hgt.ne' (congrArg BitVec.toNat hab)
    simp [compareFlag_of_gt hgt, hne, hgt, hgt.le]

/-- Settles O26: FL is the flag of the comparison. -/
theorem cmpSetsTheFlag : Obligations.CmpSetsTheFlag := fun _ _ _ ha hb =>
  ⟨_, (Completes.cmp ha hb).exec, compareFlag_iff _ _⟩

/-- Nine bits hold every byte, so a jump target is the byte as a number (R150). -/
theorem toNat_setWidth_nine (v : Byte) : (v.setWidth 9).toNat = v.toNat := by
  rw [BitVec.toNat_setWidth]
  exact Nat.mod_eq_of_lt (v.isLt.trans (by decide))

/-- Settles O31. -/
theorem jmpGoesToTheRegister : Obligations.JmpGoesToTheRegister := fun _ _ hr =>
  ⟨_, (Completes.jmp hr).exec, toNat_setWidth_nine _, rfl⟩

/-- Settles O32. -/
theorem jeqJumpsWhenEqual : Obligations.JeqJumpsWhenEqual := fun _ _ hr =>
  ⟨fun hfl => (Completes.jeqTaken hr hfl).exec, fun hfl => (Completes.jeqPassed hr hfl).exec⟩

/-- Settles O33. -/
theorem jneJumpsWhenNotEqual : Obligations.JneJumpsWhenNotEqual := fun _ _ hr =>
  ⟨fun hfl => (Completes.jneTaken hr hfl).exec, fun hfl => (Completes.jnePassed hr hfl).exec⟩

/-! ### Completions and faults: PUSH, POP, CALL and RET -/

/-- Settles O27: with SP not 0 the register is read after SP has moved; with SP = 0 the push check faults. -/
theorem pushStoresBelow : Obligations.PushStoresBelow := by
  intro s r hr
  refine ⟨fun hsp => ?_, fun hsp => ?_⟩
  · have hsp' := toNat_ne_zero_iff.mpr hsp
    rw [(Completes.push hr hsp').exec, ← reg_setSp_mk s _ hr, ← toNat_sub_one hsp']
    rfl
  · rw [exec_push, withReg_ok s hr, withPushCheck_fault s (by rw [hsp]; rfl)]

/-- A register written twice holds what was written last. -/
theorem setReg_setReg (s : State) (i : Fin 8) (v w : Byte) : (s.setReg i v).setReg i w = s.setReg i w := by
  simp only [State.setReg, Vector.set_set]

/-- POP faults when the SP it would leave is 256 (R142). -/
theorem exec_pop_fault {s : State} {r : Byte} (hr : r.toNat < 8) (h : (s.popInto ⟨r.toNat, hr⟩).sp = 0xFF#8) :
    exec (.pop r) s = .next (s.takeFault .addressOutOfRange 256#9) := by
  rw [State.popInto] at h
  rw [exec_pop, withReg_ok s hr, h]
  exact withPopCheck_fault s (by decide) _

/-- Settles O28: for R7 the SP that moves up is the byte popped, and for another register it is the SP before. -/
theorem popLoadsTheTop : Obligations.PopLoadsTheTop := by
  rintro s r hr v rfl
  have hsp := sp_popInto_mk s hr
  refine ⟨fun h7 hff => ?_, fun h7 hff => ?_, ?_⟩
  · rw [if_neg h7] at hsp
    rw [(Completes.pop hr (toNat_add_one_le_iff.mpr (hsp ▸ hff))).exec, hsp]
    rfl
  · rw [if_pos h7] at hsp
    rw [(Completes.pop hr (toNat_add_one_le_iff.mpr (hsp ▸ hff))).exec, hsp]
    rw [State.popInto, (mk_eq_spIndex_iff hr).mpr h7, State.setSp, setReg_setReg]
    rfl
  · rintro (⟨h7, hff⟩ | ⟨h7, hff⟩)
    · exact exec_pop_fault hr (by rw [hsp, if_neg h7, hff])
    · exact exec_pop_fault hr (by rw [hsp, if_pos h7]; exact hff)

/-- Settles O29: the return address is checked before SP, and the register is read after SP has moved. -/
theorem callPushesTheReturnAddress : Obligations.CallPushesTheReturnAddress := by
  intro s r hr
  refine ⟨fun hpc hsp => ?_, fun hpc => ?_, fun hpc hsp => ?_⟩
  · have hsp' := toNat_ne_zero_iff.mpr hsp
    rw [(Completes.call hr hpc hsp').exec, ← reg_setSp_mk s _ hr, ← toNat_sub_one hsp']
    rfl
  · rw [exec_call, withReg_ok s hr, withReturnAddress_fault s hpc]
  · rw [exec_call, withReg_ok s hr, withReturnAddress_ok s hpc, withPushCheck_fault s (by rw [hsp]; rfl)]

/-- Settles O30: the SP a RET leaves is one above, unless that is 256. -/
theorem retPopsThePc : Obligations.RetPopsThePc := by
  intro s
  refine ⟨fun hsp => (Completes.ret (toNat_add_one_le_iff.mpr hsp)).exec, fun hsp => ?_⟩
  rw [exec_ret, hsp]
  exact withPopCheck_fault s (by decide) _

/-! ### The ALU -/

theorem alu_div_zero (a : Byte) : alu aluDiv a 0#8 = .fault .divideByZero := rfl

/-- The zero divisor faults with the index of the divisor (R177). -/
theorem exec_div_zero {s : State} {ra rb : Byte} (ha : ra.toNat < 8) (hb : rb.toNat < 8)
    (hz : s.reg ⟨rb.toNat, hb⟩ = 0#8) :
    exec (.div ra rb) s = .next (s.takeFault .divideByZero (rb.setWidth 9)) := by
  rw [exec_div, execAlu_ok _ _ ha hb, hz, alu_div_zero, ← BitVec.ofNat_toNat]
  rfl

/-- Settles O35: the ALU's answers for SUB and DIV as numbers, and the fault that every selector outside the five
raises. -/
theorem aluSubDivAndSelectors : Obligations.AluSubDivAndSelectors := by
  refine ⟨rfl, rfl, rfl, rfl, rfl, fun a b => ⟨⟨_, alu_sub a b, toNat_ofInt_sub a b⟩, fun hz => ?_, fun hz => ?_⟩, ?_⟩
  · rw [hz, alu_div_zero]
  · exact ⟨_, by rw [alu_div, if_neg (toNat_ne_zero_iff.mpr hz)], toNat_narrow_div a b⟩
  · intro op hop s ra rb ha hb
    have hbad : ∀ op ∈ [0x4#4, 0x5#4, 0x6#4, 0x8#4, 0x9#4, 0xA#4, 0xB#4, 0xC#4, 0xD#4, 0xE#4, 0xF#4],
        op ∉ aluSelectors := by decide
    rw [execAlu_ok op s ha hb, (alu_eq_unsupported_iff op _ _).mpr (hbad op hop)]
    rfl

end Sys2Proof.Machine
end

section
/-! PROOFS. Family other, faults: the checks of R178 decide whether an instruction and a step complete, and what a step
that faults records (R90 to R95, R170 to R178). -/

namespace Sys2Proof.Machine

/-! ### Register indices -/

theorem withReg_of_find? {s : State} {r b : Byte} {k : Fin 8 → Result}
    (h : ([r].find? fun b => 8 ≤ b.toNat) = some b) :
    withReg s r k = .next (s.takeFault .addressOutOfRange (b.setWidth 9)) := by
  obtain rfl := List.mem_singleton.mp (List.mem_of_find?_eq_some h)
  exact withReg_fault s (by simpa using List.find?_some h) k

/-- The second index is looked at when the first is valid (R178). -/
theorem withRegs_of_find? {s : State} {ra rb b : Byte} {k : Fin 8 → Fin 8 → Result}
    (h : ([ra, rb].find? fun b => 8 ≤ b.toNat) = some b) :
    withRegs s ra rb k = .next (s.takeFault .addressOutOfRange (b.setWidth 9)) := by
  rw [withRegs]
  by_cases ha : ra.toNat < 8
  · rw [withReg_ok s ha]
    exact withReg_of_find? (by rwa [List.find?_cons_of_neg (by simpa using ha)] at h)
  · rw [List.find?_cons_of_pos (by simpa using ha)] at h
    obtain rfl := Option.some.inj h
    exact withReg_fault s (by omega) _

theorem execAlu_of_find? {op : BitVec 4} {s : State} {ra rb b : Byte}
    (h : ([ra, rb].find? fun b => 8 ≤ b.toNat) = some b) :
    execAlu op ra rb s = .next (s.takeFault .addressOutOfRange (b.setWidth 9)) := by
  rw [execAlu, withRegs_of_find? h]

/-- Settles O11: every instruction with register operands begins with their check. -/
theorem registerIndexIsAlwaysChecked : Obligations.RegisterIndexIsAlwaysChecked := by
  refine ⟨fun s b hb k => withReg_ok s hb k, fun i s b h => ?_⟩
  cases i with
  | hlt | ret => cases h
  | ldi => rw [exec_ldi, withReg_of_find? h]
  | prn => rw [exec_prn, withReg_of_find? h]
  | push => rw [exec_push, withReg_of_find? h]
  | pop => rw [exec_pop, withReg_of_find? h]
  | call => rw [exec_call, withReg_of_find? h]
  | jmp => rw [exec_jmp, withReg_of_find? h]
  | jeq => rw [exec_jeq, withReg_of_find? h]
  | jne => rw [exec_jne, withReg_of_find? h]
  | add | mul | cmp | sub | div => exact execAlu_of_find? h

/-! ### The checks of an instruction -/

/-- Checks 4 and 5 of R178: those made by the meaning of the instruction. -/
def execChecks (s : State) (i : Instr) : List Check := registerChecks i ++ ownChecks s i

theorem regOf?_of_lt (s : State) {r : Byte} (hr : r.toNat < 8) : s.regOf? r = some (s.reg ⟨r.toNat, hr⟩) := dif_pos hr

theorem regOf?_of_ge (s : State) {r : Byte} (hr : 8 ≤ r.toNat) : s.regOf? r = none := dif_neg (by omega)

theorem toNat_sp_popInto (s : State) {r : Byte} (hr : r.toNat < 8) :
    (s.popInto ⟨r.toNat, hr⟩).sp.toNat = if r.toNat = 7 then topOfStack s else s.sp.toNat := by
  simp only [sp_popInto_mk, toNat_eq_seven_iff]
  split_ifs <;> rfl

/-- An instruction none of whose checks fails completes. -/
theorem exists_completes {s : State} {i : Instr} (hreg : ∀ b ∈ i.regOperands, b.toNat < 8)
    (hown : ∀ check ∈ ownChecks s i, check.failed = false) : ∃ t, Completes s i t := by
  cases i with
  | hlt => exact ⟨_, .hlt⟩
  | ldi r imm8 => exact ⟨_, .ldi imm8 (hreg r (.head _))⟩
  | prn r => exact ⟨_, .prn (hreg r (.head _))⟩
  | add ra rb => exact ⟨_, .add (hreg ra (.head _)) (hreg rb (.tail _ (.head _)))⟩
  | mul ra rb => exact ⟨_, .mul (hreg ra (.head _)) (hreg rb (.tail _ (.head _)))⟩
  | cmp ra rb => exact ⟨_, .cmp (hreg ra (.head _)) (hreg rb (.tail _ (.head _)))⟩
  | sub ra rb => exact ⟨_, .sub (hreg ra (.head _)) (hreg rb (.tail _ (.head _)))⟩
  | div ra rb =>
    have hb := hreg rb (.tail _ (.head _))
    have hz : ¬ s.regOf? rb = some 0 := of_decide_eq_false (hown _ (.head _))
    rw [regOf?_of_lt s hb, Option.some_inj] at hz
    exact ⟨_, .div (hreg ra (.head _)) hb (toNat_ne_zero_iff.mpr hz)⟩
  | push r => exact ⟨_, .push (hreg r (.head _)) (of_decide_eq_false (hown _ (.head _)))⟩
  | pop r =>
    have hr := hreg r (.head _)
    have htop := of_decide_eq_false (hown _ (.head _))
    rw [← toNat_sp_popInto s hr] at htop
    exact ⟨_, .pop hr (by omega)⟩
  | call r =>
    have hpc := of_decide_eq_false (hown _ (.head _))
    exact ⟨_, .call (hreg r (.head _)) (by omega) (of_decide_eq_false (hown _ (.tail _ (.head _))))⟩
  | ret =>
    have hsp := of_decide_eq_false (hown _ (.head _))
    exact ⟨_, .ret (by omega)⟩
  | jmp r => exact ⟨_, .jmp (hreg r (.head _))⟩
  | jeq r =>
    by_cases hfl : s.fl = .equal
    · exact ⟨_, .jeqTaken (hreg r (.head _)) hfl⟩
    · exact ⟨_, .jeqPassed (hreg r (.head _)) hfl⟩
  | jne r =>
    by_cases hfl : s.fl = .equal
    · exact ⟨_, .jnePassed (hreg r (.head _)) hfl⟩
    · exact ⟨_, .jneTaken (hreg r (.head _)) hfl⟩

/-- The only check of a list fails, and is the first that does. -/
theorem find?_failed_singleton {check first : Check} (h : [check].find? (·.failed) = some first) :
    check.failed = true ∧ check = first :=
  have hfirst := List.mem_singleton.mp (List.mem_of_find?_eq_some h)
  ⟨hfirst ▸ List.find?_some h, hfirst.symm⟩

/-- With valid register bytes an instruction takes the fault of the first of its own checks that fails. -/
theorem exec_of_ownCheck_failed {s : State} {i : Instr} {check : Check}
    (hreg : ∀ b ∈ i.regOperands, b.toNat < 8) (h : (ownChecks s i).find? (·.failed) = some check) :
    exec i s = .next (s.takeFault check.cause check.info) := by
  cases i with
  | hlt | ldi | prn | add | mul | cmp | sub | jmp | jeq | jne => cases h
  | div ra rb =>
    have hb := hreg rb (.tail _ (.head _))
    obtain ⟨hz, rfl⟩ := find?_failed_singleton h
    have hz : s.regOf? rb = some 0 := of_decide_eq_true hz
    rw [regOf?_of_lt s hb, Option.some_inj] at hz
    exact exec_div_zero (hreg ra (.head _)) hb hz
  | push r =>
    obtain ⟨hsp, rfl⟩ := find?_failed_singleton h
    exact (pushStoresBelow s r (hreg r (.head _))).2 (BitVec.eq_of_toNat_eq (of_decide_eq_true hsp))
  | pop r =>
    have hr := hreg r (.head _)
    obtain ⟨htop, rfl⟩ := find?_failed_singleton h
    have htop := of_decide_eq_true htop
    rw [← toNat_sp_popInto s hr] at htop
    exact exec_pop_fault hr (BitVec.eq_of_toNat_eq (by simpa using htop))
  | call r =>
    obtain ⟨-, hlong, hzero⟩ := callPushesTheReturnAddress s r (hreg r (.head _))
    rcases List.find?_cons_eq_some.mp h with ⟨hpc, rfl⟩ | ⟨hpc, h⟩
    · exact hlong (of_decide_eq_true hpc)
    · obtain ⟨hsp, rfl⟩ := find?_failed_singleton h
      have hpc := of_decide_eq_false (Bool.not_eq_true' _ ▸ hpc)
      exact hzero (by omega) (BitVec.eq_of_toNat_eq (of_decide_eq_true hsp))
  | ret =>
    obtain ⟨hsp, rfl⟩ := find?_failed_singleton h
    have hsp := of_decide_eq_true hsp
    exact (retPopsThePc s).2 (BitVec.eq_of_toNat_eq (by simpa using hsp))

/-- The first register byte that fails its check. -/
theorem find?_registerChecks (i : Instr) :
    (registerChecks i).find? (·.failed) =
      (i.regOperands.find? fun b => 8 ≤ b.toNat).map fun b => ⟨8 ≤ b.toNat, .addressOutOfRange, b.setWidth 9⟩ :=
  List.find?_map

/-- The checks decide what an instruction does: with none failing it completes, and else it takes the fault of the first
that fails (R178). -/
theorem exec_eq_of_checks (s : State) (i : Instr) :
    match (execChecks s i).find? (·.failed) with
    | some check => exec i s = .next (s.takeFault check.cause check.info)
    | none => ∃ t, Completes s i t := by
  rw [execChecks, List.find?_append, find?_registerChecks]
  cases hbad : i.regOperands.find? fun b => 8 ≤ b.toNat with
  | some b => exact registerIndexIsAlwaysChecked.2 i s b hbad
  | none =>
    have hreg : ∀ b ∈ i.regOperands, b.toNat < 8 := fun b hb => by
      simpa using List.find?_eq_none.mp hbad b hb
    cases hown : (ownChecks s i).find? (·.failed) with
    | some check => exact exec_of_ownCheck_failed hreg hown
    | none => exact exists_completes hreg fun check hc => by simpa using List.find?_eq_none.mp hown check hc

theorem exec_of_failed {s : State} {i : Instr} {check : Check}
    (h : (execChecks s i).find? (·.failed) = some check) :
    exec i s = .next (s.takeFault check.cause check.info) := by
  have hexec := exec_eq_of_checks s i
  rwa [h] at hexec

theorem exists_completes_of_passed {s : State} {i : Instr} (h : (execChecks s i).find? (·.failed) = none) :
    ∃ t, Completes s i t := by
  have hexec := exec_eq_of_checks s i
  rwa [h] at hexec

/-- An instruction completes, or takes the fault of its first failing check. -/
theorem exec_cases {i : Instr} {s t : State} (h : exec i s = .next t) :
    Completes s i t ∨
      ∃ check, (execChecks s i).find? (·.failed) = some check ∧ t = s.takeFault check.cause check.info := by
  cases hfind : (execChecks s i).find? (·.failed) with
  | some check => exact .inr ⟨check, rfl, Host.Outcome.next.inj (h.symm.trans (exec_of_failed hfind))⟩
  | none =>
    obtain ⟨u, hu⟩ := exists_completes_of_passed hfind
    obtain rfl := Host.Outcome.next.inj (h.symm.trans hu.exec)
    exact .inl hu

theorem exists_exec_eq_next (i : Instr) (s : State) : ∃ t, exec i s = .next t := by
  cases hfind : (execChecks s i).find? (·.failed) with
  | some check => exact ⟨_, exec_of_failed hfind⟩
  | none => exact (exists_completes_of_passed hfind).imp fun _ => Completes.exec

theorem Completes.rs_eq {s t : State} {i : Instr} (h : Completes s i t) (hi : i ≠ .hlt) : t.rs = s.rs := by
  cases h with
  | hlt => exact absurd rfl hi
  | _ => rfl

/-- Only a fault leaves FAULTED (R27). -/
theorem Completes.rs_ne_faulted {s t : State} {i : Instr} (h : Completes s i t) (hs : s.rs = .running) :
    t.rs ≠ .faulted := by
  by_cases hi : i = .hlt
  · subst hi
    cases h
    exact nofun
  · rw [h.rs_eq hi, hs]
    decide

/-! ### The fetches -/

theorem width_le_three (m : Mnemonic) : m.width ≤ 3 := by
  cases m <;> decide

theorem width_pos (m : Mnemonic) : 0 < m.width := by
  cases m <;> decide

/-- With the bytes of its operands there, the instruction is read (R71). -/
theorem decodeOperands_instrOf {m : Mnemonic} {bytes : List Byte} {b1 b2 : Byte}
    (h1 : 2 ≤ m.width → bytes[0]? = some b1) (h2 : 3 ≤ m.width → bytes[1]? = some b2) :
    ∃ rest, decodeOperands m bytes = .ok (instrOf m b1 b2, rest) := by
  cases m with
  | hlt | ret => exact ⟨bytes, rfl⟩
  | prn | push | pop | call | jmp | jeq | jne =>
    match bytes, h1 (by decide) with
    | _ :: rest, rfl => exact ⟨rest, rfl⟩
  | ldi | add | mul | cmp | sub | div =>
    match bytes, h1 (by decide), h2 (by decide) with
    | _ :: _ :: rest, rfl, rfl => exact ⟨rest, rfl⟩

/-- With too few bytes, the first that is missing is found out (R92, R95). -/
theorem decodeOperands_short {m : Mnemonic} {bytes : List Byte} (h : bytes.length + 1 < m.width) :
    decodeOperands m bytes = .error (.missingByte (bytes.length + 1)) := by
  cases m with
  | hlt | ret => exact absurd h (Nat.not_lt.mpr (Nat.le_add_left 1 _))
  | prn | push | pop | call | jmp | jeq | jne =>
    match bytes, h with
    | [], _ => rfl
    | _ :: _, h => exact absurd h (Nat.not_lt.mpr (Nat.le_add_left 2 _))
  | ldi | add | mul | cmp | sub | div =>
    match bytes, h with
    | [], _ => rfl
    | [_], _ => rfl
    | _ :: _ :: _, h => exact absurd h (Nat.not_lt.mpr (Nat.le_add_left 3 _))

/-- An instruction whose bytes all lie in memory is decoded from the bytes memory holds (R92, R95). -/
theorem decode_codeBytes_of_fits {c : Config} {s : State} {m : Mnemonic}
    (hop : decodeOpcode c (s.mem.read s.pc.toNat) = some m) (hfit : s.pc.toNat + m.width ≤ 256) :
    ∃ rest, decode c s.codeBytes = .ok (instrAtPc s m, rest) := by
  have hpos := width_pos m
  rw [codeBytes_eq_cons (by omega), decode_cons, hop]
  refine decodeOperands_instrOf (fun hw => ?_) (fun hw => ?_)
  · exact (getElem?_bytesFrom s.mem (s.pc.toNat + 1) 2 0).trans (if_pos ⟨by decide, by omega⟩)
  · exact (getElem?_bytesFrom s.mem (s.pc.toNat + 1) 2 1).trans (if_pos ⟨by decide, by omega⟩)

theorem stepWith_of_fits {c : Config} {s : State} {m : Mnemonic} (hs : s.rs = .running)
    (hop : decodeOpcode c (s.mem.read s.pc.toNat) = some m) (hfit : s.pc.toNat + m.width ≤ 256) :
    stepWith c s = exec (instrAtPc s m) s := by
  obtain ⟨rest, hd⟩ := decode_codeBytes_of_fits hop hfit
  rw [stepWith_running hs, hd]

/-- An instruction that runs over the end of memory faults at address 256, where its first missing byte would be (R92,
R95). -/
theorem stepWith_of_runsOver {c : Config} {s : State} {m : Mnemonic} (hs : s.rs = .running)
    (hpc : s.pc.toNat ≤ 255) (hop : decodeOpcode c (s.mem.read s.pc.toNat) = some m)
    (hover : 256 < s.pc.toNat + m.width) : stepWith c s = .next (s.takeFault .addressOutOfRange 256#9) := by
  have hw := width_le_three m
  have hlen := length_bytesFrom s.mem (s.pc.toNat + 1) 2
  rw [stepWith_running hs, codeBytes_eq_cons hpc, decode_cons, hop]
  dsimp only
  rw [decodeOperands_short (by omega)]
  dsimp only [raiseDecodeError, raise]
  rw [show s.pc.toNat + ((bytesFrom s.mem (s.pc.toNat + 1) 2).length + 1) = 256 by omega]

/-- With `pc` beyond memory the opcode fetch faults (R92). -/
theorem stepWith_of_pc_beyond {c : Config} {s : State} (hs : s.rs = .running) (hpc : 255 < s.pc.toNat) :
    stepWith c s = .next (s.takeFault .addressOutOfRange s.pc) := by
  have hnil : s.codeBytes = [] := if_neg (by omega)
  rw [stepWith_running hs, hnil]
  dsimp only [decode, raiseDecodeError, raise]
  rw [Nat.add_zero, BitVec.ofNat_toNat, BitVec.setWidth_eq]

/-- Settles O10: the three places the bytes of an instruction can lie. -/
theorem fetchBeyondMemoryFaults : Obligations.FetchBeyondMemoryFaults := fun _ _ hs =>
  ⟨stepWith_of_pc_beyond hs, fun _ _ hpc hop hk hend => stepWith_of_runsOver hs hpc hop (by omega),
    fun _ hop hfit => stepWith_of_fits hs hop hfit⟩

/-! ### The checks of a step -/

/-- No operand fetch fails when the instruction ends in memory. -/
theorem find?_operandFetchChecks_of_fits {p w : Nat} (h : p + w ≤ 256) :
    (operandFetchChecks p w).find? (·.failed) = none := by
  simp only [operandFetchChecks, List.find?_eq_none, List.mem_map, List.mem_range]
  rintro _ ⟨k, hk, rfl⟩
  simp
  omega

/-- The first operand fetch that fails is at address 256. -/
theorem find?_operandFetchChecks_of_runsOver {p w : Nat} (hp : p ≤ 255) (h : 256 < p + w) :
    (operandFetchChecks p w).find? (·.failed) = some ⟨true, .addressOutOfRange, 256#9⟩ := by
  have hfirst : ((List.range (w - 1)).find? fun k => decide (256 ≤ p + (k + 1))) = some (255 - p) := by
    simp only [List.find?_range_eq_some, List.mem_range, decide_eq_true_eq, Bool.not_eq_true',
      decide_eq_false_iff_not]
    exact ⟨by omega, by omega, fun j hj => by omega⟩
  rw [operandFetchChecks, List.find?_map]
  refine (congrArg (Option.map _) hfirst).trans ?_
  rw [Option.map_some, show p + (255 - p + 1) = 256 by omega]
  rfl

/-- Settles O12: the checks are passed in the order of R178 until one fails, and each failure is the fault the step
takes there. -/
theorem stepFaultIsTheFirstFailingCheck : Obligations.StepFaultIsTheFirstFailingCheck := by
  intro c s hs
  rw [checksOf]
  by_cases hpc : 256 ≤ s.pc.toNat
  · rw [List.find?_cons_of_pos (by simpa using hpc)]
    exact stepWith_of_pc_beyond hs hpc
  · rw [List.find?_cons_of_neg (by simpa using hpc)]
    cases hop : decodeOpcode c (s.mem.read s.pc.toNat) with
    | none => exact stepWith_unknownOpcode hs (by omega) hop
    | some m =>
      dsimp only
      rw [List.append_assoc, List.find?_append]
      by_cases hfit : s.pc.toNat + m.width ≤ 256
      · rw [find?_operandFetchChecks_of_fits hfit, Option.none_or, stepWith_of_fits hs hop hfit, ← execChecks]
        cases hfind : (execChecks s (instrAtPc s m)).find? (·.failed) with
        | some check => exact exec_of_failed hfind
        | none =>
          obtain ⟨t, ht⟩ := exists_completes_of_passed hfind
          exact ⟨t, ht.exec, ht.rs_ne_faulted hs⟩
      · rw [find?_operandFetchChecks_of_runsOver (by omega) (by omega)]
        exact stepWith_of_runsOver hs (by omega) hop (by omega)

/-! ### What a step does -/

theorem exists_stepWith_eq_next {c : Config} {s : State} (hs : s.rs = .running) : ∃ t, stepWith c s = .next t := by
  rw [stepWith_running hs]
  cases decode c s.codeBytes with
  | error e => cases e <;> exact ⟨_, rfl⟩
  | ok r => exact exists_exec_eq_next r.1 s

theorem stepWith_halted {c : Config} {s : State} (hs : s.rs = .halted) : stepWith c s = .fault .halted := by
  rw [stepWith, hs]

theorem stepWith_faulted {c : Config} {s : State} (hs : s.rs = .faulted) : stepWith c s = .fault .faulted := by
  rw [stepWith, hs]

/-- Settles O9: a step that answers a next state began in RUNNING, and in RUNNING both a failed decode and an
instruction answer one. -/
theorem stepExistsExactlyWhenRunning : Obligations.StepExistsExactlyWhenRunning := fun _ _ =>
  ⟨⟨exists_stepWith_eq_next, fun ⟨_, h⟩ => (stepWith_cases h).1⟩, stepWith_halted, stepWith_faulted⟩

/-- Settles O8: a step is dispatched on what the bytes decode to, and those bytes are memory's from `pc` on. -/
theorem stepRunsTheDecodedInstruction : Obligations.StepRunsTheDecodedInstruction := by
  have hstep : ∀ (c : Config) (s : State) (i : Instr) (rest : List Byte), s.rs = .running →
      decode c s.codeBytes = .ok (i, rest) → stepWith c s = exec i s := fun c s i rest hs hd => by
    rw [stepWith_running hs, hd]
  refine ⟨hstep, hstep Config.machine, fun s bytes hend hlen hbytes => ?_⟩
  have htake : s.codeBytes.take bytes.length = bytes := List.ext_getElem? fun k => by
    rw [List.getElem?_take]
    split_ifs with hk
    · rw [getElem?_codeBytes s (by omega) (by omega), hbytes k hk]
    · exact (List.getElem?_eq_none (Nat.not_lt.mp hk)).symm
  exact ⟨_, (List.take_append_drop bytes.length s.codeBytes).symm.trans (congrArg (· ++ _) htake)⟩

/-- Settles O4: the fault writes the run state and the record, and a FAULTED block has no step. -/
theorem unknownOpcodeIsFatal : Obligations.UnknownOpcodeIsFatal := by
  intro c s hs hpc hnone
  refine ⟨_, stepWith_unknownOpcode hs hpc (decodeOpcode_eq_none_iff.mpr hnone), rfl, rfl, rfl, rfl, rfl, rfl, rfl,
    rfl, fun u hu => ?_⟩
  rw [stepWith_faulted rfl] at hu
  cases hu

/-- Settles O13: the record is written from the state the fault is taken in. -/
theorem takingAFaultWritesTheRecord : Obligations.TakingAFaultWritesTheRecord :=
  ⟨rfl, rfl, rfl, rfl, fun _ _ _ => ⟨rfl, rfl, rfl, rfl, opcodeAtPc_eq_read, fun h => if_neg (by omega),
    rfl, rfl, rfl, rfl, rfl⟩⟩

theorem code_ne_zero (cause : Cause) : cause.code ≠ 0#3 := by
  cases cause <;> decide

/-- Settles O14: a step that ends FAULTED ends in the state that taking a fault leaves. -/
theorem faultsArePrecise : Obligations.FaultsArePrecise := by
  intro c s t h hf
  obtain ⟨cause, info, -, rfl⟩ := stepWith_reachableFault h hf
  exact ⟨rfl, rfl, rfl, rfl, rfl, rfl, rfl, code_ne_zero cause⟩

/-- The faults a step can take: what each says of the bytes at `pc` (R92 to R94, R140, R151, R177). -/
inductive StepFault (c : Config) (s : State) : Cause → Word9 → Prop
  | address (info : Word9) : StepFault c s .addressOutOfRange info
  | opcode (hpc : s.pc.toNat ≤ 255) (hnone : decodeOpcode c s.opcodeAtPc = none) :
      StepFault c s .unknownOpcode (s.opcodeAtPc.setWidth 9)
  | divisor {ra rb : Byte} {rest : List Byte} (hb : rb.toNat < 8)
      (hd : decode c s.codeBytes = .ok (.div ra rb, rest)) (hz : s.reg ⟨rb.toNat, hb⟩ = 0#8) (info : Word9) :
      StepFault c s .divideByZero info

/-- Every check of an instruction raises AddressOutOfRangeFault, but the one of DIV. -/
theorem cause_of_mem_execChecks {s : State} {i : Instr} {check : Check} (h : check ∈ execChecks s i) :
    check.cause = .addressOutOfRange ∨ ∃ ra rb, i = .div ra rb ∧ check.cause = .divideByZero ∧
      check.failed = decide (s.regOf? rb = some 0) := by
  rcases List.mem_append.mp h with h | h
  · obtain ⟨b, -, rfl⟩ := List.mem_map.mp h
    exact .inl rfl
  · cases i with
    | hlt | ldi | prn | add | mul | cmp | sub | jmp | jeq | jne => cases h
    | push | pop | ret =>
      obtain rfl := List.mem_singleton.mp h
      exact .inl rfl
    | call =>
      rcases List.mem_cons.mp h with rfl | h
      · exact .inl rfl
      · obtain rfl := List.mem_singleton.mp h
        exact .inl rfl
    | div ra rb =>
      obtain rfl := List.mem_singleton.mp h
      exact .inr ⟨ra, rb, rfl, rfl, rfl⟩

theorem stepFault_of_failed {c : Config} {s : State} {i : Instr} {rest : List Byte} {check : Check}
    (hd : decode c s.codeBytes = .ok (i, rest)) (h : (execChecks s i).find? (·.failed) = some check) :
    StepFault c s check.cause check.info := by
  rcases cause_of_mem_execChecks (List.mem_of_find?_eq_some h) with hcause | ⟨ra, rb, rfl, hcause, hfailed⟩
  · exact hcause ▸ .address _
  · have hz : s.regOf? rb = some 0 := of_decide_eq_true (hfailed ▸ List.find?_some h)
    rw [State.regOf?, Option.dite_none_right_eq_some] at hz
    obtain ⟨hb, hz⟩ := hz
    exact hcause ▸ .divisor hb hd (Option.some.inj hz) _

/-- A step completes the instruction at `pc`, or takes one of the faults. -/
theorem stepWith_completes_or_faults {c : Config} {s t : State} (h : stepWith c s = .next t) :
    s.rs = .running ∧ ((∃ i rest, decode c s.codeBytes = .ok (i, rest) ∧ Completes s i t) ∨
      ∃ cause info, StepFault c s cause info ∧ t = s.takeFault cause info) := by
  have hs := (stepWith_cases h).1
  refine ⟨hs, ?_⟩
  by_cases hpc : s.pc.toNat ≤ 255
  · cases hop : decodeOpcode c (s.mem.read s.pc.toNat) with
    | none =>
      have hread := opcodeAtPc_eq_read hpc
      have hstep := stepWith_unknownOpcode hs hpc hop
      rw [← hread] at hop hstep
      exact .inr ⟨_, _, .opcode hpc hop, Host.Outcome.next.inj (h.symm.trans hstep)⟩
    | some m =>
      by_cases hfit : s.pc.toNat + m.width ≤ 256
      · obtain ⟨rest, hd⟩ := decode_codeBytes_of_fits hop hfit
        rcases exec_cases (exec_of_stepWith h hd).2 with hc | ⟨check, hfind, ht⟩
        · exact .inl ⟨_, rest, hd, hc⟩
        · exact .inr ⟨_, _, stepFault_of_failed hd hfind, ht⟩
      · have hstep := stepWith_of_runsOver hs hpc hop (by omega)
        exact .inr ⟨_, _, .address _, Host.Outcome.next.inj (h.symm.trans hstep)⟩
  · have hstep := stepWith_of_pc_beyond (c := c) hs (by omega)
    exact .inr ⟨_, _, .address _, Host.Outcome.next.inj (h.symm.trans hstep)⟩

theorem completes_of_stepWith {c : Config} {s t : State} (h : stepWith c s = .next t) (hf : t.rs ≠ .faulted) :
    ∃ i rest, decode c s.codeBytes = .ok (i, rest) ∧ Completes s i t := by
  rcases (stepWith_completes_or_faults h).2 with hc | ⟨cause, info, -, rfl⟩
  · exact hc
  · exact absurd rfl hf

theorem stepFault_of_stepWith {c : Config} {s t : State} (h : stepWith c s = .next t) (hf : t.rs = .faulted) :
    ∃ cause info, StepFault c s cause info ∧ t = s.takeFault cause info := by
  obtain ⟨hs, ⟨i, rest, -, hc⟩ | hfault⟩ := stepWith_completes_or_faults h
  · exact absurd hf (hc.rs_ne_faulted hs)
  · exact hfault

/-- Settles O16: DIV checks its divisor, and it is the only source of code 4. -/
theorem divideByZeroFaults : Obligations.DivideByZeroFaults := by
  refine ⟨fun s ra rb ha hb hz => exec_div_zero ha hb hz, fun c s t h hf hcode => ?_⟩
  obtain ⟨cause, info, hfault, rfl⟩ := stepFault_of_stepWith h hf
  cases hfault with
  | address | opcode => cases hcode
  | divisor hb hd hz => exact ⟨_, _, _, hb, hd, hz⟩

end Sys2Proof.Machine
end

section
/-! PROOFS. Family other, frames: what an instruction leaves as it was, completed or faulted (R110 to R155, R174). -/

namespace Sys2Proof.Machine

/-! ### What a completed instruction leaves -/

/-- The numbers of the registers an instruction can write (R20, R21). -/
def writtenRegs : Instr → List Nat
  | .hlt | .prn _ | .cmp _ _ | .jmp _ | .jeq _ | .jne _ => []
  | .ldi r _ => [r.toNat]
  | .add ra _ | .mul ra _ | .sub ra _ | .div ra _ => [ra.toNat]
  | .push _ | .call _ | .ret => [7]
  | .pop r => [r.toNat, 7]

theorem reg_setReg_of_not_mem (s : State) {i j : Fin 8} (v : Byte) (h : j.val ∉ [i.val]) :
    (s.setReg i v).reg j = s.reg j :=
  reg_setReg_other s v (Fin.ne_of_val_ne (mt List.mem_singleton.mpr h))

theorem Completes.reg_eq {s t : State} {i : Instr} (h : Completes s i t) {j : Fin 8}
    (hj : j.val ∉ writtenRegs i) : t.reg j = s.reg j := by
  cases h with
  | ldi | add | mul | sub | div | push | call | ret => exact reg_setReg_of_not_mem s _ hj
  | pop hr =>
    have hdest := List.ne_of_not_mem_cons hj
    have hsp := List.not_mem_of_not_mem_cons hj
    calc ((s.popInto ⟨_, hr⟩).setSp _).reg j
      _ = (s.popInto ⟨_, hr⟩).reg j := reg_setReg_of_not_mem _ _ hsp
      _ = s.reg j := reg_setReg_other s _ (Fin.ne_of_val_ne hdest)
  | _ => rfl

theorem Completes.output_eq {s t : State} {i : Instr} (h : Completes s i t) (hi : ∀ r, i ≠ .prn r) :
    t.output = s.output := by
  cases h with
  | prn => exact absurd rfl (hi _)
  | _ => rfl

theorem Completes.fault_eq {s t : State} {i : Instr} (h : Completes s i t) : t.fault = s.fault := by
  cases h <;> rfl

theorem Completes.mem_eq {s t : State} {i : Instr} (h : Completes s i t) (hpush : ∀ r, i ≠ .push r)
    (hcall : ∀ r, i ≠ .call r) : t.mem = s.mem := by
  cases h with
  | push => exact absurd rfl (hpush _)
  | call => exact absurd rfl (hcall _)
  | _ => rfl

/-- The one byte a push changes is at the SP it leaves (R59). -/
theorem eq_of_read_pushByte_ne {s : State} (hm : s.mem.wf) {a : Byte} {v : State → Byte} {b : Nat}
    (h : (s.pushByte a v).mem.read b ≠ s.mem.read b) : b = a.toNat := by
  by_contra hb
  rw [pushByte_mem, read_write hm.1, if_neg hb] at h
  exact h rfl

/-- Only PUSH and CALL change memory, and only the byte at the SP they leave (R50). -/
theorem Completes.read_ne {s t : State} {i : Instr} (h : Completes s i t) (hm : s.mem.wf) {a : Nat}
    (hne : t.mem.read a ≠ s.mem.read a) :
    a = t.sp.toNat ∧ a + 1 = s.sp.toNat ∧ ∃ r, i = .push r ∨ i = .call r := by
  have hbelow : s.sp.toNat ≠ 0 → a = (s.sp - 1#8).toNat → a + 1 = s.sp.toNat := fun hsp ha => by
    rw [ha, toNat_sub_one hsp]
    omega
  cases h with
  | push hr hsp =>
    rw [advance_mem] at hne
    have ha := eq_of_read_pushByte_ne hm hne
    refine ⟨?_, hbelow hsp ha, _, .inl rfl⟩
    rw [ha, sp_advance, pushByte_sp]
  | call hr hpc hsp =>
    rw [jumpTo_mem] at hne
    have ha := eq_of_read_pushByte_ne hm hne
    refine ⟨?_, hbelow hsp ha, _, .inr rfl⟩
    rw [ha, sp_jumpTo, pushByte_sp]
  | _ => exact absurd rfl hne

/-! ### What an instruction leaves when it may fault -/

theorem exec_reg_eq {i : Instr} {s t : State} (h : exec i s = .next t) {j : Fin 8}
    (hj : j.val ∉ writtenRegs i) : t.reg j = s.reg j := by
  rcases exec_cases h with hc | ⟨check, -, rfl⟩
  · exact hc.reg_eq hj
  · rfl

theorem exec_output_eq {i : Instr} {s t : State} (h : exec i s = .next t) (hi : ∀ r, i ≠ .prn r) :
    t.output = s.output := by
  rcases exec_cases h with hc | ⟨check, -, rfl⟩
  · exact hc.output_eq hi
  · rfl

theorem exec_fl_eq {i : Instr} {s t : State} (h : exec i s = .next t) (hi : ∀ ra rb, i ≠ .cmp ra rb) :
    t.fl = s.fl :=
  (exec_fl_or_cmp h).resolve_right fun ⟨_, ra, rb, hcmp⟩ => hi ra rb hcmp

theorem exec_mem_eq {i : Instr} {s t : State} (h : exec i s = .next t) (hpush : ∀ r, i ≠ .push r)
    (hcall : ∀ r, i ≠ .call r) : t.mem = s.mem := by
  rcases exec_cases h with hc | ⟨check, -, rfl⟩
  · exact hc.mem_eq hpush hcall
  · rfl

/-- Any instruction but HLT keeps the run state and the record, or faults. -/
theorem exec_keepsRun {i : Instr} {s t : State} (h : exec i s = .next t) (hi : i ≠ .hlt) :
    (t.rs = s.rs ∧ t.fault = s.fault) ∨ ∃ cause info, t = s.takeFault cause info := by
  rcases exec_cases h with hc | ⟨check, -, ht⟩
  · exact .inl ⟨hc.rs_eq hi, hc.fault_eq⟩
  · exact .inr ⟨_, _, ht⟩

theorem exec_read_ne {i : Instr} {s t : State} (h : exec i s = .next t) (hm : s.mem.wf) {a : Nat}
    (hne : t.mem.read a ≠ s.mem.read a) : a + 1 = s.sp.toNat := by
  rcases exec_cases h with hc | ⟨check, -, rfl⟩
  · exact (hc.read_ne hm hne).2.1
  · exact absurd rfl hne

/-! ### The frames -/

/-- Settles O36: the register forms write their destination, FL or the output, and nothing of memory. -/
theorem registerInstructionFrame : Obligations.RegisterInstructionFrame := by
  intro i s t h
  refine ⟨?_, ?_, ?_, ?_, ?_⟩
  · rintro r imm8 rfl
    exact ⟨fun j hj => exec_reg_eq h (mt List.mem_singleton.mp hj), exec_fl_eq h nofun, exec_output_eq h nofun⟩
  · rintro r rfl
    exact ⟨fun j => exec_reg_eq h List.not_mem_nil, exec_fl_eq h nofun⟩
  · rintro ra rb (rfl | rfl | rfl | rfl) <;>
      exact ⟨fun j hj => exec_reg_eq h (mt List.mem_singleton.mp hj), exec_fl_eq h nofun, exec_output_eq h nofun⟩
  · rintro ra rb rfl
    exact ⟨fun j => exec_reg_eq h List.not_mem_nil, exec_output_eq h nofun⟩
  · rintro (⟨r, imm8, rfl⟩ | ⟨r, rfl⟩ | ⟨ra, rb, rfl | rfl | rfl | rfl | rfl⟩) <;>
      exact ⟨fun a => congrArg (Memory.read · a) (exec_mem_eq h nofun nofun), exec_keepsRun h nofun⟩

/-- PUSH and CALL write SP, the byte one below it and, for CALL, `pc` (R141, R151). -/
theorem pushing_frame {i : Instr} {s t : State} {r : Byte} (hi : i = .push r ∨ i = .call r) (hm : s.mem.wf)
    (h : exec i s = .next t) :
    (∀ j : Fin 8, j ≠ spIndex → t.reg j = s.reg j) ∧ t.fl = s.fl ∧ t.output = s.output ∧
    (∀ a : Nat, s.sp.toNat - 1 = a → ∀ b : Nat, b ≠ a → t.mem.read b = s.mem.read b) ∧
    (s.sp = 0#8 → ∀ b : Nat, t.mem.read b = s.mem.read b) ∧
    ((t.rs = s.rs ∧ t.fault = s.fault) ∨ ∃ cause info, t = s.takeFault cause info) := by
  have hregs : writtenRegs i = [spIndex.val] := by rcases hi with rfl | rfl <;> rfl
  have hcmp : ∀ ra rb, i ≠ .cmp ra rb := by rcases hi with rfl | rfl <;> nofun
  have hprn : ∀ r, i ≠ .prn r := by rcases hi with rfl | rfl <;> nofun
  have hhlt : i ≠ .hlt := by rcases hi with rfl | rfl <;> nofun
  refine ⟨fun j hj => exec_reg_eq h ?_, exec_fl_eq h hcmp, exec_output_eq h hprn, ?_, ?_, exec_keepsRun h hhlt⟩
  · rw [hregs, List.mem_singleton]
    exact Fin.val_ne_of_ne hj
  · rintro _ rfl b hb
    by_contra hne
    have hbelow := exec_read_ne h hm hne
    omega
  · intro hsp b
    by_contra hne
    have hbelow := exec_read_ne h hm hne
    rw [hsp] at hbelow
    exact absurd hbelow (Nat.succ_ne_zero b)

/-- Settles O37: PUSH and CALL share one frame. -/
theorem pushingInstructionFrame : Obligations.PushingInstructionFrame := by
  rintro s t hm r (h | h)
  · exact pushing_frame (.inl rfl) hm h
  · exact pushing_frame (.inr rfl) hm h

/-- Settles O38: POP and RET write registers and, for RET, `pc`. -/
theorem poppingInstructionFrame : Obligations.PoppingInstructionFrame := by
  refine fun s t => ⟨fun r h j hdest hsp => exec_reg_eq h ?_, fun h j hj => exec_reg_eq h ?_, ?_⟩
  · exact List.not_mem_cons_of_ne_of_not_mem hdest (mt List.mem_singleton.mp (Fin.val_ne_of_ne hsp))
  · exact mt List.mem_singleton.mp (Fin.val_ne_of_ne hj)
  · rintro (h | ⟨r, h⟩) <;>
      exact ⟨exec_fl_eq h nofun, exec_output_eq h nofun,
        fun a => congrArg (Memory.read · a) (exec_mem_eq h nofun nofun), exec_keepsRun h nofun⟩

/-- Settles O39: HLT writes the run state, and a jump writes `pc`. -/
theorem jumpAndHaltFrame : Obligations.JumpAndHaltFrame := by
  refine fun s t => ⟨fun h => ?_, ?_, ?_⟩
  · obtain rfl := execHlt_cases h
    exact ⟨rfl, rfl⟩
  · rintro r (h | h | h) <;> exact exec_keepsRun h nofun
  · rintro r (h | h | h | h) <;>
      exact ⟨fun j => exec_reg_eq h List.not_mem_nil, exec_fl_eq h nofun, exec_output_eq h nofun,
        fun a => congrArg (Memory.read · a) (exec_mem_eq h nofun nofun)⟩

end Sys2Proof.Machine
end

section
/-! PROOFS. Family other, rules of the whole machine: the `pc` of the table, the invariant, output, HALTED, memory, and
what a step does not read (R23 to R35, R50, R101). -/

namespace Sys2Proof.Machine

/-! ### The program counter -/

theorem regOf?_getD (s : State) {r : Byte} (hr : r.toNat < 8) : (s.regOf? r).getD 0 = s.reg ⟨r.toNat, hr⟩ := by
  rw [regOf?_of_lt s hr, Option.getD_some]

/-- A completed instruction leaves the `pc` of the table (R24). -/
theorem Completes.toNat_pc {s t : State} {i : Instr} (h : Completes s i t) (hfit : s.pc.toNat + i.width ≤ 256) :
    t.pc.toNat = nextPc s i := by
  cases h with
  | hlt => rfl
  | ldi | prn | add | mul | sub | div | cmp | push | pop => exact toNat_pc_add hfit
  | call hr hpc hsp =>
    rw [jumpTo_pc, toNat_setWidth_nine, reg_setSp_mk, nextPc, regOf?_getD s hr, ← toNat_sub_one hsp]
    simp only [toNat_eq_seven_iff]
    split_ifs <;> rfl
  | ret => exact toNat_setWidth_nine _
  | jmp hr => rw [jumpTo_pc, toNat_setWidth_nine, nextPc, regOf?_getD s hr]
  | jeqTaken hr hfl => rw [jumpTo_pc, toNat_setWidth_nine, nextPc, if_pos hfl, regOf?_getD s hr]
  | jeqPassed hr hfl => exact (toNat_pc_add hfit).trans (if_neg hfl).symm
  | jneTaken hr hfl => rw [jumpTo_pc, toNat_setWidth_nine, nextPc, if_neg hfl, regOf?_getD s hr]
  | jnePassed hr hfl => exact (toNat_pc_add hfit).trans (if_pos hfl).symm

/-- Settles O45: a step that does not fault completes an instruction that ends in memory. -/
theorem pcFollowsTheTable : Obligations.PcFollowsTheTable := by
  intro c s t h hf
  obtain ⟨i, rest, hd, hc⟩ := completes_of_stepWith h hf
  exact ⟨i, rest, hd, hc.toNat_pc (pc_add_width_le_of_decode_ok hd)⟩

/-- A jump target is a byte, so the table gives 256 or more only to a sequential advance (R23). -/
theorem nextPc_eq_of_ge {s : State} {i : Instr} (hpc : s.pc.toNat < 256) (h : 256 ≤ nextPc s i) :
    nextPc s i = s.pc.toNat + i.width ∧ (∀ r : Byte, i ≠ .jmp r ∧ i ≠ .call r) ∧ i ≠ .ret ∧ i ≠ .hlt := by
  have hbyte : ∀ v : Byte, ¬ 256 ≤ v.toNat := fun v => Nat.not_le.mpr v.isLt
  cases i with
  | hlt => exact absurd h (Nat.not_le.mpr hpc)
  | ldi | prn | add | mul | cmp | push | pop | sub | div => exact ⟨rfl, fun r => ⟨nofun, nofun⟩, nofun, nofun⟩
  | call r =>
    rw [nextPc] at h
    split_ifs at h
    · exact absurd (h.trans (Nat.sub_le _ _)) (hbyte _)
    · exact absurd h (hbyte _)
  | ret => exact absurd h (hbyte _)
  | jmp => exact absurd h (hbyte _)
  | jeq r =>
    rw [nextPc] at h ⊢
    split_ifs at h ⊢
    · exact absurd h (hbyte _)
    · exact ⟨rfl, fun r => ⟨nofun, nofun⟩, nofun, nofun⟩
  | jne r =>
    rw [nextPc] at h ⊢
    split_ifs at h ⊢
    · exact ⟨rfl, fun r => ⟨nofun, nofun⟩, nofun, nofun⟩
    · exact absurd h (hbyte _)

/-- Settles O46: the step did not fault, since a fault keeps `pc`, and the table gives 256 to an advance alone. -/
theorem pcPastMemoryOnlyByAdvance : Obligations.PcPastMemoryOnlyByAdvance := by
  intro c s t h ht hs
  have hf : t.rs ≠ .faulted := fun hf => by
    obtain ⟨cause, info, -, rfl⟩ := stepFault_of_stepWith h hf
    exact absurd hs (Nat.not_lt.mpr ht)
  obtain ⟨i, rest, hd, hpc⟩ := pcFollowsTheTable c s t h hf
  obtain ⟨hnext, hi⟩ := nextPc_eq_of_ge hs (hpc ▸ ht)
  have hfit := pc_add_width_le_of_decode_ok hd
  exact ⟨i, rest, hd, by omega, by omega, hi⟩

/-! ### The invariant -/

/-- The instruction that was decoded is the one whose opcode stands at `pc` (R92, R93). -/
theorem opcodeAtPc_of_decode_ok {c : Config} {s : State} {i : Instr} {rest : List Byte}
    (h : decode c s.codeBytes = .ok (i, rest)) :
    s.pc.toNat < 256 ∧ decodeOpcode c s.opcodeAtPc = some i.mnemonic := by
  have hfit := pc_add_width_le_of_decode_ok h
  have hpos := width_eq_length_operands i
  have hpc : s.pc.toNat ≤ 255 := by omega
  rw [codeBytes_eq_cons hpc] at h
  exact ⟨by omega, opcodeAtPc_eq_read hpc ▸ decodeOpcode_of_decode_ok h⟩

/-- The store of a push lies in memory, so the canonical form is kept. -/
theorem Completes.mem_wf {s t : State} {i : Instr} (h : Completes s i t) (hm : s.mem.wf) : t.mem.wf := by
  cases h with
  | push | call => exact write_wf hm (BitVec.isLt _) _
  | _ => exact hm

theorem nextPc_le {s : State} {i : Instr} (hfit : s.pc.toNat + i.width ≤ 256) : nextPc s i ≤ 256 := by
  have hpos := width_eq_length_operands i
  by_cases hge : 256 ≤ nextPc s i
  · rw [(nextPc_eq_of_ge (by omega) hge).1]
    exact hfit
  · omega

/-- A completed instruction keeps the invariant. -/
theorem inv_of_completes {c : Config} {s t : State} {i : Instr} {rest : List Byte} (hs : s.rs = .running)
    (hinv : s.Inv c) (hd : decode c s.codeBytes = .ok (i, rest)) (hc : Completes s i t) : t.Inv c where
  memory := hc.mem_wf hinv.memory
  pcRange := by
    have hfit := pc_add_width_le_of_decode_ok hd
    exact (hc.toNat_pc hfit).trans_le (nextPc_le hfit)
  recordClear _ := hc.fault_eq.trans (hinv.recordClear (by rw [hs]; decide))
  haltedAtHlt hhalted := by
    by_cases hi : i = .hlt
    · subst hi
      cases hc
      exact opcodeAtPc_of_decode_ok hd
    · rw [hc.rs_eq hi, hs] at hhalted
      cases hhalted
  recordAgrees hf := absurd hf (hc.rs_ne_faulted hs)

/-- A fault leaves a record that describes the instruction at `pc` (R175). -/
theorem inv_takeFault {c : Config} {s : State} {cause : Cause} {info : Word9} (hinv : s.Inv c)
    (hfault : StepFault c s cause info) : (s.takeFault cause info).Inv c where
  memory := hinv.memory
  pcRange := hinv.pcRange
  recordClear hf := absurd rfl hf
  haltedAtHlt hhalted := nomatch hhalted
  recordAgrees _ := by
    refine ⟨rfl, rfl, ?_⟩
    cases hfault with
    | address => exact .inr (.inl rfl)
    | opcode hpc hnone => exact .inl ⟨rfl, Nat.lt_succ_of_le hpc, hnone, rfl⟩
    | divisor hb hd hz => exact .inr (.inr ⟨rfl, opcodeAtPc_of_decode_ok hd⟩)

/-- Settles O18: a step completes an instruction or takes a fault, and both keep the invariant. -/
theorem everyStepKeepsTheInvariant : Obligations.EveryStepKeepsTheInvariant := by
  have hstep : ∀ (c : Config) (s t : State), s.Inv c → stepWith c s = .next t → t.Inv c := by
    intro c s t hinv h
    obtain ⟨hs, ⟨i, rest, hd, hc⟩ | ⟨cause, info, hfault, rfl⟩⟩ := stepWith_completes_or_faults h
    · exact inv_of_completes hs hinv hd hc
    · exact inv_takeFault hinv hfault
  exact ⟨hstep, hstep Config.machine⟩

theorem inv_resetFrom (c : Config) {s : State} (hm : s.mem.wf) : (s.resetFrom c).Inv c where
  memory := hm
  pcRange := Nat.zero_le _
  recordClear _ := rfl
  haltedAtHlt hhalted := nomatch hhalted
  recordAgrees hf := nomatch hf

/-- Settles O17: the first state is a reset of a state with nothing loaded. -/
theorem resetMeetsTheInvariant : Obligations.ResetMeetsTheInvariant :=
  ⟨fun c => inv_resetFrom c (s := State.initial c) nil_wf,
    inv_resetFrom Config.machine (s := State.reset) nil_wf, fun c _ hm => inv_resetFrom c hm⟩

/-! ### Output, HALTED and memory -/

theorem regOf?_eq_some_iff {s : State} {r v : Byte} :
    s.regOf? r = some v ↔ ∃ hr : r.toNat < 8, s.reg ⟨r.toNat, hr⟩ = v := by
  rw [State.regOf?, Option.dite_none_right_eq_some]
  simp only [Option.some_inj]

/-- A step has an output event exactly when it is a PRN of a register (R34, R113). -/
theorem outputEvent_eq_some_iff {c : Config} {s : State} {v : Byte} :
    outputEvent c s = some v ↔ s.rs = .running ∧ ∃ (r : Byte) (hr : r.toNat < 8) (rest : List Byte),
      decode c s.codeBytes = .ok (.prn r, rest) ∧ s.reg ⟨r.toNat, hr⟩ = v := by
  constructor
  · intro h
    rw [outputEvent] at h
    split at h
    · next r rest hs hd =>
      obtain ⟨hr, hv⟩ := regOf?_eq_some_iff.mp h
      exact ⟨hs, r, hr, rest, hd, hv⟩
    · cases h
  · rintro ⟨hs, r, hr, rest, hd, rfl⟩
    rw [outputEvent, hs, hd]
    exact regOf?_of_lt s hr

/-- Settles O41: the event is the byte that PRN emits, and without an event nothing is emitted. -/
theorem outputGrowsOnlyByPrn : Obligations.OutputGrowsOnlyByPrn := by
  intro c s t h
  cases hevent : outputEvent c s with
  | some v =>
    obtain ⟨-, r, hr, rest, hd, rfl⟩ := outputEvent_eq_some_iff.mp hevent
    refine ⟨?_, fun _ => ⟨r, hr, rest, hd, rfl⟩⟩
    obtain rfl := Host.Outcome.next.inj ((exec_of_stepWith h hd).2.symm.trans (Completes.prn hr).exec)
    rfl
  | none =>
    refine ⟨?_, absurd rfl⟩
    rw [Option.toList_none, List.append_nil]
    obtain ⟨hs, ⟨i, rest, hd, hc⟩ | ⟨cause, info, -, rfl⟩⟩ := stepWith_completes_or_faults h
    · refine hc.output_eq ?_
      rintro r rfl
      cases hc with
      | prn hr =>
        have hsome := outputEvent_eq_some_iff.mpr ⟨hs, r, hr, rest, hd, rfl⟩
        rw [hevent] at hsome
        cases hsome
    · rfl

/-- Settles O42: HLT is the one instruction that does not keep the run state. -/
theorem haltedOnlyByHlt : Obligations.HaltedOnlyByHlt := by
  refine fun c s t h => ⟨fun hhalted => ?_, fun ⟨rest, hd⟩ => ?_⟩
  · obtain ⟨i, rest, hd, hc⟩ := completes_of_stepWith h (by rw [hhalted]; decide)
    by_cases hi : i = .hlt
    · exact ⟨rest, hi ▸ hd⟩
    · rw [hc.rs_eq hi, (stepWith_cases h).1] at hhalted
      cases hhalted
  · obtain rfl := execHlt_cases (exec_of_stepWith h hd).2
    rfl

/-- Settles O43: a fault keeps memory, and a completed instruction changes it as `Completes.read_ne` says. -/
theorem memoryChangesOnlyByPushAndCall : Obligations.MemoryChangesOnlyByPushAndCall := by
  intro c s t a hm h hne
  obtain ⟨-, ⟨i, rest, hd, hc⟩ | ⟨cause, info, -, rfl⟩⟩ := stepWith_completes_or_faults h
  · obtain ⟨ht, hs, r, hi⟩ := hc.read_ne hm hne
    refine ⟨ht, hs, r, rest, ?_⟩
    rcases hi with rfl | rfl
    · exact .inl hd
    · exact .inr hd
  · exact absurd rfl hne

/-! ### What a step does not read -/

/-- The state with other bytes before the output trace and another fault record. -/
def State.withTrace (s : State) (before : List Byte) (record : FaultRecord) : State :=
  { s with output := before ++ s.output, fault := record }

/-- No instruction reads the output trace or the record (R28, R29). -/
theorem Completes.withTrace {s t : State} {i : Instr} (h : Completes s i t) (before : List Byte)
    (record : FaultRecord) : Completes (s.withTrace before record) i (t.withTrace before record) := by
  cases h with
  | hlt => exact .hlt
  | ldi imm8 hr => exact .ldi imm8 hr
  | prn hr =>
    have happend : ((s.emit (s.reg ⟨_, hr⟩)).advance 2).withTrace before record =
        ((s.withTrace before record).emit (s.reg ⟨_, hr⟩)).advance 2 :=
      state_eq rfl rfl rfl rfl rfl rfl (List.append_assoc _ _ _).symm
    exact happend ▸ .prn hr
  | add ha hb => exact .add ha hb
  | mul ha hb => exact .mul ha hb
  | sub ha hb => exact .sub ha hb
  | div ha hb hz => exact .div ha hb hz
  | cmp ha hb => exact .cmp ha hb
  | push hr hsp => exact .push hr hsp
  | pop hr hsp => exact .pop hr hsp
  | call hr hpc hsp => exact .call hr hpc hsp
  | ret hsp => exact .ret hsp
  | jmp hr => exact .jmp hr
  | jeqTaken hr hfl => exact .jeqTaken hr hfl
  | jeqPassed hr hfl => exact .jeqPassed hr hfl
  | jneTaken hr hfl => exact .jneTaken hr hfl
  | jnePassed hr hfl => exact .jnePassed hr hfl

theorem codeBytes_withTrace (s : State) (before : List Byte) (record : FaultRecord) :
    (s.withTrace before record).codeBytes = s.codeBytes := rfl

theorem execChecks_withTrace (s : State) (i : Instr) (before : List Byte) (record : FaultRecord) :
    execChecks (s.withTrace before record) i = execChecks s i := by
  cases i <;> rfl

/-- A fault records the same from both states. -/
theorem takeFault_withTrace (s : State) (before : List Byte) (record : FaultRecord) (cause : Cause) (info : Word9) :
    (s.withTrace before record).takeFault cause info =
      (s.takeFault cause info).withTrace before (s.takeFault cause info).fault := rfl

/-- The run of an instruction from the state with another trace and record. -/
theorem exec_withTrace {s t : State} {i : Instr} (hs : s.rs = .running) (h : exec i s = .next t)
    (before : List Byte) (record : FaultRecord) :
    exec i (s.withTrace before record) =
      .next (t.withTrace before (if t.rs = .faulted then t.fault else record)) := by
  rcases exec_cases h with hc | ⟨check, hfind, rfl⟩
  · rw [if_neg (hc.rs_ne_faulted hs)]
    exact (hc.withTrace before record).exec
  · rw [← execChecks_withTrace s i before record] at hfind
    rw [exec_of_failed hfind, takeFault_withTrace, if_pos (takeFault_rs ..)]

/-- Settles O47: the decoder sees the same bytes, and neither the checks nor the effects look at the trace or the
record. -/
theorem outputAndFaultRecordAreNeverRead : Obligations.OutputAndFaultRecordAreNeverRead := by
  intro c s t before record h
  obtain ⟨hs, ⟨e, hd, he⟩ | ⟨i, rest, hd, hexec⟩⟩ := stepWith_cases h
  · have hstep : stepWith c (s.withTrace before record) = raiseDecodeError (s.withTrace before record) e := by
      rw [stepWith_running (s := s.withTrace before record) hs, codeBytes_withTrace, hd]
    refine hstep.trans ?_
    rcases raiseDecodeError_cases he with ⟨k, rfl, rfl⟩ | ⟨op, rfl, rfl⟩ <;> rfl
  · have hstep : stepWith c (s.withTrace before record) = exec i (s.withTrace before record) := by
      rw [stepWith_running (s := s.withTrace before record) hs, codeBytes_withTrace, hd]
    exact hstep.trans (exec_withTrace hs hexec before record)

/-! ### A jump to itself -/

theorem jumpTo_eq_self {s : State} {v : Byte} (h : v.toNat = s.pc.toNat) : s.jumpTo v = s := by
  have hpc : v.setWidth 9 = s.pc := BitVec.eq_of_toNat_eq ((toNat_setWidth_nine v).trans h)
  rw [State.jumpTo, hpc]

/-- A RUNNING state that steps to itself never ends its run (R101). -/
theorem runFuel_of_fixedPoint {c : Config} {s : State} (hs : s.rs = .running) (h : stepWith c s = .next s)
    (fuel : Nat) : runFuel c fuel s = .outOfFuel s := by
  induction fuel with
  | zero => rw [runFuel, RunEnd.ofState, hs]
  | succ fuel ih =>
    rw [runFuel, h]
    exact ih

/-- Settles O48: the jump leaves the state as it is. -/
theorem jumpToItselfNeverEnds : Obligations.JumpToItselfNeverEnds := by
  intro c s r hr rest hs hd hself
  have hstep : stepWith c s = .next s := by
    rw [stepWith_running hs, hd]
    dsimp only
    rw [(Completes.jmp hr).exec, jumpTo_eq_self hself]
  exact ⟨hstep, runFuel_of_fixedPoint hs hstep⟩

end Sys2Proof.Machine
end

section
/-! PROOFS. Family other, the stack: a POP undoes a PUSH, and a RET goes back after its CALL (R143, R157). -/

namespace Sys2Proof.Machine

/-- The byte a push has stored is there at the new SP (R53, R59). -/
theorem load_pushByte {s : State} (hm : s.mem.wf) (a : Byte) (v : State → Byte) :
    (s.pushByte a v).load a = v (s.setSp a) := by
  rw [State.load, pushByte_mem, read_write hm.1, if_pos rfl]

/-- The state a PUSH of a register leaves when it completes (R141). -/
def State.pushed (s : State) (i : Fin 8) : State := (s.pushByte (s.sp - 1#8) fun u => u.reg i).advance 2

theorem sp_pushed (s : State) (i : Fin 8) : (s.pushed i).sp = s.sp - 1#8 :=
  pushByte_sp s _ fun u => u.reg i

theorem load_sp_pushed {s : State} (hm : s.mem.wf) (i : Fin 8) :
    (s.pushed i).load (s.pushed i).sp = (s.setSp (s.sp - 1#8)).reg i := by
  rw [sp_pushed]
  exact load_pushByte hm _ fun u => u.reg i

/-- Before a POP moves it, SP is where the PUSH left it, also when the register is SP itself (R143). -/
theorem sp_popInto_pushed {s : State} (hm : s.mem.wf) (i : Fin 8) : ((s.pushed i).popInto i).sp = s.sp - 1#8 := by
  rw [State.popInto, sp_setReg, load_sp_pushed hm, sp_pushed, reg_setSp]
  split_ifs <;> rfl

/-- A PUSH and then a POP of the same register leave every register as it was (R143). -/
theorem reg_setSp_popInto_pushed {s : State} (hm : s.mem.wf) (i j : Fin 8) :
    (((s.pushed i).popInto i).setSp s.sp).reg j = s.reg j := by
  by_cases hj : j = spIndex
  · rw [reg_setSp, if_pos hj, hj, reg_spIndex]
  · have hpush : ∀ k, k ≠ spIndex → (s.setSp (s.sp - 1#8)).reg k = s.reg k := fun k hk => by
      rw [reg_setSp, if_neg hk]
    rw [reg_setSp, if_neg hj, State.popInto, reg_setReg, load_sp_pushed hm]
    split_ifs with hi
    · rw [hi, hpush j hj]
    · exact hpush j hj

/-- Settles O49: the POP finds SP and the byte where the PUSH left them. -/
theorem pushPopRoundTrip : Obligations.PushPopRoundTrip := by
  refine fun s r hr hm => ⟨fun hsp => ?_, fun hsp => ?_⟩
  · have hsp0 : s.sp.toNat ≠ 0 := by omega
    have htop := sp_popInto_pushed hm ⟨r.toNat, hr⟩
    have hpop : ((s.pushed ⟨r.toNat, hr⟩).popInto ⟨r.toNat, hr⟩).sp.toNat + 1 ≤ 255 := by
      rw [htop, toNat_sub_one hsp0]
      omega
    have hback : s.sp - 1#8 + 1#8 = s.sp := BitVec.sub_add_cancel _ _
    refine ⟨_, _, (Completes.push hr hsp0).exec, (Completes.pop hr hpop).exec, ?_, rfl, rfl, rfl, rfl,
      fun a ha => ?_, ?_⟩
    · rw [htop, hback]
      exact regs_eq (reg_setSp_popInto_pushed hm _)
    · exact (read_write hm.1 _ _ a).trans (if_neg (by rwa [toNat_sub_one hsp0]))
    · rw [← reg_setSp_mk s _ hr, ← toNat_sub_one hsp0]
      exact (read_write hm.1 _ _ _).trans (if_pos rfl)
  · exact ⟨_, (pushStoresBelow s r hr).2 (BitVec.eq_of_toNat_eq hsp), rfl⟩

/-- Settles O50: the byte CALL pushed is `p + 2`, and SP is one below where it was. -/
theorem returnGoesAfterTheCall : Obligations.ReturnGoesAfterTheCall := by
  intro s t u r hs hm h hf husp hread
  rcases exec_cases h with hc | ⟨check, -, rfl⟩
  · cases hc with
    | call hr hpc hsp =>
      rw [sp_jumpTo, pushByte_sp] at husp hread
      rw [jumpTo_mem] at hread
      have hbyte : u.load u.sp = narrow (s.pc.toNat + 2) := hread.trans (load_pushByte hm _ fun _ => _)
      have hret : u.sp.toNat + 1 ≤ 255 := by
        rw [husp, toNat_sub_one hsp]
        omega
      refine ⟨_, (Completes.ret hret).exec, ?_, ?_⟩
      · rw [jumpTo_pc, toNat_setWidth_nine, hbyte, narrow_toNat]
        omega
      · rw [sp_jumpTo, sp_setSp, husp, BitVec.sub_add_cancel]
  · exact absurd rfl hf

end Sys2Proof.Machine
end

section
/-! PROOFS. Family other, memory: the canonical form is unique, and a loaded image reads back (R50, R51, R196). -/

namespace Sys2Proof.Machine

theorem read_cons_same (a : Nat) (v : Byte) (m : Memory) : Memory.read ((a, v) :: m) a = v := if_pos rfl

theorem wf_of_wf_cons {x : Host.Cell} {m : Memory} (h : Memory.wf (x :: m)) :
    x.2 ≠ 0#8 ∧ x.1 < 256 ∧ (∀ y ∈ m, x.1 < y.1) ∧ m.wf := by
  obtain ⟨hsorted, hcells⟩ := h
  obtain ⟨hlt, hsorted⟩ := List.pairwise_cons.mp hsorted
  obtain ⟨⟨hx, hv⟩, hcells⟩ := List.forall_mem_cons.mp hcells
  exact ⟨hv, hx, hlt, hsorted, hcells⟩

theorem read_eq_zero_of_lt_cons {a b : Nat} {w : Byte} {n : Memory} (hn : Memory.wf ((b, w) :: n)) (h : a < b) :
    Memory.read ((b, w) :: n) a = 0#8 := by
  obtain ⟨-, -, hlt, -⟩ := wf_of_wf_cons hn
  exact read_eq_zero_of_forall_lt (List.forall_mem_cons.mpr ⟨h, fun y hy => h.trans (hlt y hy)⟩)

/-- The first cell of a memory in canonical form is not above that of a memory that reads the same. -/
theorem le_of_read_eq {a b : Nat} {v w : Byte} {m n : Memory} (hm : Memory.wf ((a, v) :: m))
    (hn : Memory.wf ((b, w) :: n)) (h : ∀ c < 256, Memory.read ((a, v) :: m) c = Memory.read ((b, w) :: n) c) :
    b ≤ a := by
  obtain ⟨hv, ha, -⟩ := wf_of_wf_cons hm
  by_contra hlt
  have hread := h a ha
  rw [read_cons_same, read_eq_zero_of_lt_cons hn (by omega)] at hread
  exact hv hread

/-- A memory in canonical form that reads 0 everywhere lists nothing. -/
theorem eq_nil_of_read_eq_zero {m : Memory} (hm : m.wf) (h : ∀ a < 256, m.read a = 0#8) : m = [] := by
  cases m with
  | nil => rfl
  | cons x m =>
    obtain ⟨hv, ha, -⟩ := wf_of_wf_cons hm
    exact absurd ((read_cons_same x.1 x.2 m).symm.trans (h x.1 ha)) hv

/-- Settles O52: the first cells agree in address and byte, and what is left of the two memories reads the same. -/
theorem memoryFormIsCanonical : Obligations.MemoryFormIsCanonical := by
  intro m
  induction m with
  | nil => exact fun n _ hn h => (eq_nil_of_read_eq_zero hn fun a ha => (h a ha).symm).symm
  | cons x m ih =>
    intro n hm hn h
    cases n with
    | nil => exact eq_nil_of_read_eq_zero hm h
    | cons y n =>
      obtain ⟨a, v⟩ := x
      obtain ⟨b, w⟩ := y
      obtain rfl : a = b :=
        Nat.le_antisymm (le_of_read_eq hn hm fun c hc => (h c hc).symm) (le_of_read_eq hm hn h)
      obtain ⟨-, ha, hmlt, hm⟩ := wf_of_wf_cons hm
      obtain ⟨-, -, hnlt, hn⟩ := wf_of_wf_cons hn
      have hvw := h a ha
      rw [read_cons_same, read_cons_same] at hvw
      rw [hvw, ih n hm hn fun c hc => ?_]
      by_cases hca : c = a
      · rw [hca, read_eq_zero_of_forall_lt hmlt, read_eq_zero_of_forall_lt hnlt]
      · have hread := h c hc
        rwa [read_cons, read_cons, if_neg hca, if_neg hca] at hread

/-- Bytes written inside memory are read back, and the other addresses are as they were. -/
theorem read_writeBytes {m : Memory} (hm : m.wf) {a : Nat} {vs : List Byte} (h : a + vs.length ≤ 256) (b : Nat) :
    (m.writeBytes a vs).read b = if a ≤ b ∧ b < a + vs.length then vs.getD (b - a) 0#8 else m.read b := by
  induction vs generalizing m a with
  | nil => exact (if_neg (by simp)).symm
  | cons v vs ih =>
    rw [List.length_cons] at h ⊢
    have ha : a < 256 := by omega
    rw [Memory.writeBytes, if_pos ha, ih (write_wf hm ha v) (by omega), read_write hm.1]
    rcases lt_trichotomy b a with hlt | rfl | hgt
    · rw [if_neg (by omega), if_neg (by omega), if_neg (by omega)]
    · rw [if_neg (by omega), if_pos rfl, if_pos (by omega), Nat.sub_self, List.getD_cons_zero]
    · obtain ⟨k, rfl⟩ : ∃ k, b = a + 1 + k := ⟨b - (a + 1), by omega⟩
      rw [show a + 1 + k - a = k + 1 by omega, Nat.add_sub_cancel_left, List.getD_cons_succ]
      exact if_congr (by omega) rfl (if_neg (by omega))

/-- Settles O57: the image is written from address 0 into a memory that lists nothing. -/
theorem bootedMemoryIsTheImage : Obligations.BootedMemoryIsTheImage := by
  refine fun c image hlen => ⟨writeBytes_wf nil_wf 0 image, fun a => ?_⟩
  refine (read_writeBytes nil_wf (by omega) a).trans ?_
  by_cases ha : a < image.length
  · rw [if_pos (by omega), Nat.sub_zero]
  · rw [if_neg (by omega), List.getD_eq_default _ _ (by omega), read_nil]

end Sys2Proof.Machine
end

section
/-! PROOFS. Family other, the memory port: the accesses of a step are its fetches and then the data accesses of its
instruction (R33, R61, R67). -/

namespace Sys2Proof.Machine

/-! ### Lists of accesses -/

theorem readAddresses_append (l₁ l₂ : List Access) :
    readAddresses (l₁ ++ l₂) = readAddresses l₁ ++ readAddresses l₂ := by
  induction l₁ with
  | nil => rfl
  | cons x l₁ ih => cases x <;> simp [readAddresses, ih]

theorem writeAddresses_append (l₁ l₂ : List Access) :
    writeAddresses (l₁ ++ l₂) = writeAddresses l₁ ++ writeAddresses l₂ := by
  induction l₁ with
  | nil => rfl
  | cons x l₁ ih => cases x <;> simp [writeAddresses, ih]

theorem applyAccesses_append (l₁ l₂ : List Access) (m : Memory) :
    applyAccesses (l₁ ++ l₂) m = applyAccesses l₂ (applyAccesses l₁ m) := by
  induction l₁ generalizing m with
  | nil => rfl
  | cons x l₁ ih => cases x <;> exact ih _

/-- Accesses without a write leave memory as it is. -/
theorem applyAccesses_of_no_writes {l : List Access} (h : writeAddresses l = []) (m : Memory) :
    applyAccesses l m = m := by
  induction l with
  | nil => rfl
  | cons x l ih =>
    cases x with
    | read a v => exact ih h
    | write a v => cases h

/-- The address of an access (R33). -/
def Access.address : Access → Nat
  | .read a _ => a
  | .write a _ => a

/-- What is read or written is the address of an access. -/
theorem exists_address_eq {l : List Access} {a : Nat} (h : a ∈ readAddresses l ++ writeAddresses l) :
    ∃ x ∈ l, x.address = a := by
  induction l with
  | nil => cases h
  | cons x l ih =>
    have hcons : a = x.address ∨ a ∈ readAddresses l ++ writeAddresses l := by
      cases x with
      | read b v => simpa [readAddresses, writeAddresses, Access.address, or_assoc] using h
      | write b v => simpa [readAddresses, writeAddresses, Access.address, or_left_comm] using h
    rcases hcons with rfl | hl
    · exact ⟨x, .head _, rfl⟩
    · obtain ⟨y, hy, rfl⟩ := ih hl
      exact ⟨y, .tail _ hy, rfl⟩

/-! ### Fetches -/

theorem fetchAccesses_succ (m : Memory) {a : Nat} (n : Nat) (h : a < 256) :
    fetchAccesses m a (n + 1) = .read a (m.read a) :: fetchAccesses m (a + 1) n := if_pos h

theorem fetchAccesses_beyond (m : Memory) {a : Nat} (n : Nat) (h : 256 ≤ a) : fetchAccesses m a n = [] := by
  cases n with
  | zero => rfl
  | succ n => exact if_neg (by omega)

theorem writeAddresses_fetchAccesses (m : Memory) (a n : Nat) : writeAddresses (fetchAccesses m a n) = [] := by
  induction n generalizing a with
  | zero => rfl
  | succ n ih =>
    by_cases ha : a < 256
    · rw [fetchAccesses_succ m n ha, writeAddresses, ih]
    · rw [fetchAccesses_beyond m _ (by omega), writeAddresses]

/-- Fetches that end in memory read consecutive addresses (R95). -/
theorem readAddresses_fetchAccesses (m : Memory) {a n : Nat} (h : a + n ≤ 256) :
    readAddresses (fetchAccesses m a n) = (List.range n).map fun k => a + k := by
  induction n generalizing a with
  | zero => rfl
  | succ n ih =>
    rw [fetchAccesses_succ m n (by omega), readAddresses, ih (by omega), List.range_succ_eq_map, List.map_cons,
      List.map_map, Nat.add_zero]
    congr 2
    funext k
    exact Nat.add_right_comm a 1 k

theorem address_le_of_mem_fetchAccesses {m : Memory} {a n : Nat} {x : Access} (h : x ∈ fetchAccesses m a n) :
    x.address ≤ 255 := by
  induction n generalizing a with
  | zero => cases h
  | succ n ih =>
    by_cases ha : a < 256
    · rw [fetchAccesses_succ m n ha] at h
      rcases List.mem_cons.mp h with rfl | h
      · exact Nat.le_of_lt_succ ha
      · exact ih h
    · rw [fetchAccesses_beyond m _ (by omega)] at h
      cases h

/-! ### Data accesses -/

theorem pushAccess_some {s : State} (hsp : s.sp.toNat ≠ 0) (v : Byte) :
    pushAccess s (some v) = [.write (s.sp.toNat - 1) v] := if_neg hsp

/-- The access of a PUSH that completes (R67). -/
theorem dataAccesses_push {s : State} {r : Byte} (hr : r.toNat < 8) (hsp : s.sp.toNat ≠ 0) :
    dataAccesses (.push r) s = [.write (s.sp.toNat - 1) ((s.setSp (s.sp - 1#8)).reg ⟨r.toNat, hr⟩)] := by
  rw [← pushAccess_some hsp, reg_setSp_mk, dataAccesses, regOf?_of_lt s hr]
  simp only [toNat_eq_seven_iff, apply_ite some]

/-- The access of a CALL that completes (R67). -/
theorem dataAccesses_call {s : State} {r : Byte} (hr : r.toNat < 8) (hpc : s.pc.toNat + 2 ≤ 255)
    (hsp : s.sp.toNat ≠ 0) : dataAccesses (.call r) s = [.write (s.sp.toNat - 1) (narrow (s.pc.toNat + 2))] := by
  rw [← pushAccess_some hsp, dataAccesses, if_pos hpc, regOf?_of_lt s hr, Option.map_some]

theorem pushAccess_sp_zero {s : State} (hsp : s.sp.toNat = 0) (v : Option Byte) : pushAccess s v = [] := by
  cases v with
  | none => rfl
  | some v => exact if_pos hsp

/-- The data accesses are the change of memory (R67). -/
theorem Completes.mem_eq_applyAccesses {s t : State} {i : Instr} (h : Completes s i t) :
    t.mem = applyAccesses (dataAccesses i s) s.mem := by
  cases h with
  | push hr hsp =>
    rw [dataAccesses_push hr hsp, advance_mem, pushByte_mem, toNat_sub_one hsp]
    rfl
  | call hr hpc hsp =>
    rw [dataAccesses_call hr hpc hsp, jumpTo_mem, pushByte_mem, toNat_sub_one hsp]
    rfl
  | pop hr =>
    rw [dataAccesses, if_pos hr]
    rfl
  | _ => rfl

/-- An instruction that does not complete writes nothing on the port (R67, R174). -/
theorem writeAddresses_dataAccesses {s : State} {i : Instr} (h : ∀ t, ¬ Completes s i t) :
    writeAddresses (dataAccesses i s) = [] := by
  cases i with
  | push r =>
    by_cases hsp : s.sp.toNat = 0
    · rw [dataAccesses, pushAccess_sp_zero hsp, writeAddresses]
    · have hr : 8 ≤ r.toNat := Nat.not_lt.mp fun hr => h _ (.push hr hsp)
      rw [dataAccesses, if_neg (by omega), regOf?_of_ge s hr, pushAccess, writeAddresses]
  | call r =>
    rw [dataAccesses]
    split_ifs with hpc
    · by_cases hsp : s.sp.toNat = 0
      · rw [pushAccess_sp_zero hsp, writeAddresses]
      · have hr : 8 ≤ r.toNat := Nat.not_lt.mp fun hr => h _ (.call hr hpc hsp)
        rw [regOf?_of_ge s hr, Option.map_none, pushAccess, writeAddresses]
    · rfl
  | pop r =>
    rw [dataAccesses]
    split_ifs <;> rfl
  | _ => rfl

theorem address_le_of_mem_pushAccess {s : State} {v : Option Byte} {x : Access} (h : x ∈ pushAccess s v) :
    x.address ≤ 255 := by
  have hlt := s.sp.isLt
  cases v with
  | none => cases h
  | some v =>
    rw [pushAccess] at h
    split_ifs at h with hsp
    · cases h
    · obtain rfl := List.mem_singleton.mp h
      exact (Nat.sub_le _ 1).trans (Nat.le_of_lt_succ hlt)

/-- Every data access is at SP or just below it. -/
theorem address_le_of_mem_dataAccesses {s : State} {i : Instr} {x : Access} (h : x ∈ dataAccesses i s) :
    x.address ≤ 255 := by
  have hread : Access.address (.read s.sp.toNat (s.load s.sp)) ≤ 255 := Nat.le_of_lt_succ s.sp.isLt
  cases i with
  | push r => exact address_le_of_mem_pushAccess h
  | call r =>
    rw [dataAccesses] at h
    split_ifs at h
    · exact address_le_of_mem_pushAccess h
    · cases h
  | pop r =>
    rw [dataAccesses] at h
    split_ifs at h
    · exact List.mem_singleton.mp h ▸ hread
    · cases h
  | ret => exact List.mem_singleton.mp h ▸ hread
  | _ => cases h

/-! ### The trace of a step -/

/-- The accesses of a step whose bytes decode: as many fetches as the width, and the data accesses (R61, R67). -/
theorem portTrace_of_decode_ok {c : Config} {s : State} {i : Instr} {rest : List Byte} (hs : s.rs = .running)
    (hd : decode c s.codeBytes = .ok (i, rest)) :
    portTrace c s = fetchAccesses s.mem s.pc.toNat i.width ++ dataAccesses i s := by
  obtain ⟨hpc, hop⟩ := opcodeAtPc_of_decode_ok hd
  rw [opcodeAtPc_eq_read (by omega)] at hop
  have hwidth : i.width = i.mnemonic.width - 1 + 1 := (Nat.sub_add_cancel (width_pos _)).symm
  rw [portTrace, hs]
  dsimp only
  rw [if_pos hpc, hd, operandAccesses, hop, hwidth, fetchAccesses_succ s.mem _ hpc]

/-- The accesses of a step whose bytes do not decode are fetches (R67, R92). -/
theorem portTrace_of_decode_error {c : Config} {s : State} {e : DecodeError} (hs : s.rs = .running)
    (hd : decode c s.codeBytes = .error e) : ∃ n, portTrace c s = fetchAccesses s.mem s.pc.toNat n := by
  rw [portTrace, hs]
  dsimp only
  rw [hd]
  split_ifs with hpc
  · rw [List.append_nil, operandAccesses]
    cases decodeOpcode c (s.mem.read s.pc.toNat) with
    | none => exact ⟨1, (fetchAccesses_succ s.mem 0 hpc).symm⟩
    | some m => exact ⟨m.width - 1 + 1, (fetchAccesses_succ s.mem _ hpc).symm⟩
  · exact ⟨0, rfl⟩

/-- A step that faults writes nothing on the port (R67, R174). -/
theorem writeAddresses_portTrace_of_faulted {c : Config} {s t : State} (h : stepWith c s = .next t)
    (hf : t.rs = .faulted) : writeAddresses (portTrace c s) = [] := by
  obtain ⟨hs, ⟨e, hd, -⟩ | ⟨i, rest, hd, hexec⟩⟩ := stepWith_cases h
  · obtain ⟨n, htrace⟩ := portTrace_of_decode_error hs hd
    rw [htrace, writeAddresses_fetchAccesses]
  · have hnot : ∀ u, ¬ Completes s i u := fun u hu => by
      obtain rfl := Host.Outcome.next.inj (hexec.symm.trans hu.exec)
      exact hu.rs_ne_faulted hs hf
    rw [portTrace_of_decode_ok hs hd, writeAddresses_append, writeAddresses_fetchAccesses,
      writeAddresses_dataAccesses hnot, List.nil_append]

/-- Settles O53: a fault makes no write, and the data accesses of a completed instruction are its change of memory. -/
theorem portWritesAreTheMemoryChange : Obligations.PortWritesAreTheMemoryChange := by
  intro c s t h
  by_cases hf : t.rs = .faulted
  · rw [applyAccesses_of_no_writes (writeAddresses_portTrace_of_faulted h hf)]
    obtain ⟨cause, info, -, rfl⟩ := stepFault_of_stepWith h hf
    rfl
  · obtain ⟨i, rest, hd, hc⟩ := completes_of_stepWith h hf
    rw [portTrace_of_decode_ok (stepWith_cases h).1 hd, applyAccesses_append,
      applyAccesses_of_no_writes (writeAddresses_fetchAccesses ..), hc.mem_eq_applyAccesses]

theorem address_le_of_mem_portTrace {c : Config} {s : State} (hs : s.rs = .running) {x : Access}
    (h : x ∈ portTrace c s) : x.address ≤ 255 := by
  cases hd : decode c s.codeBytes with
  | error e =>
    obtain ⟨n, htrace⟩ := portTrace_of_decode_error hs hd
    exact address_le_of_mem_fetchAccesses (htrace ▸ h)
  | ok r =>
    rw [portTrace_of_decode_ok (rest := r.2) hs hd] at h
    exact (List.mem_append.mp h).elim address_le_of_mem_fetchAccesses address_le_of_mem_dataAccesses

/-- Settles O54: the fetches of a completed instruction are its bytes, and its data accesses are those of the table. -/
theorem portAccessesFollowTheTable : Obligations.PortAccessesFollowTheTable := by
  intro c s t h
  have hs := (stepWith_cases h).1
  refine ⟨fun a ha => ?_, writeAddresses_portTrace_of_faulted h, fun hf => ?_⟩
  · obtain ⟨x, hx, rfl⟩ := exists_address_eq ha
    exact address_le_of_mem_portTrace hs hx
  · obtain ⟨i, rest, hd, hc⟩ := completes_of_stepWith h hf
    have htrace := portTrace_of_decode_ok hs hd
    refine ⟨i, rest, hd, ?_⟩
    rw [htrace, readAddresses_append, readAddresses_fetchAccesses _ (pc_add_width_le_of_decode_ok hd),
      writeAddresses_append, writeAddresses_fetchAccesses, List.nil_append]
    cases hc with
    | push hr hsp =>
      rw [dataAccesses_push hr hsp]
      exact ⟨rfl, rfl⟩
    | call hr hpc hsp =>
      rw [dataAccesses_call hr hpc hsp]
      exact ⟨rfl, rfl⟩
    | pop hr =>
      rw [dataAccesses, if_pos hr]
      exact ⟨rfl, rfl⟩
    | _ => exact ⟨rfl, rfl⟩

end Sys2Proof.Machine
end

section
/-! PROOFS. Family other, reset and the status port (R26, R35, R37, R190, R191). -/

namespace Sys2Proof.Machine

/-- SP is the last register of the file, which reset pushes (R37). -/
theorem sp_resetFrom (c : Config) (s : State) : (s.resetFrom c).sp = c.spInit :=
  Vector.getElem_push_eq

theorem reg_resetFrom (c : Config) (s : State) (k : Fin 7) : (s.resetFrom c).reg k.castSucc = c.regReset.get k :=
  Vector.getElem_push_lt k.isLt

/-- Settles O55. -/
theorem resetSetsEverythingButMemory : Obligations.ResetSetsEverythingButMemory := fun c s =>
  ⟨rfl, sp_resetFrom c s, reg_resetFrom c s, rfl, rfl, rfl, rfl, rfl, rfl, rfl⟩

/-- Settles O56: the fixed machine's SP is the default of its configuration, and it lists no cell. -/
theorem resetStateOfTheMachine : Obligations.ResetStateOfTheMachine :=
  ⟨rfl, sp_resetFrom Config.machine State.reset, rfl, rfl, rfl, rfl, read_nil⟩

/-- Settles O58: the port shows the run state and the record, and the invariant clears the record in RUNNING. -/
theorem statusPortShowsTheRunState : Obligations.StatusPortShowsTheRunState := by
  refine fun s => ⟨beq_iff_eq, beq_iff_eq, rfl, rfl, rfl, rfl, fun c hinv hs => ?_⟩
  have hclear : s.fault = FaultRecord.clear := hinv.recordClear (by rw [hs]; decide)
  rw [State.status, hs, hclear]
  rfl

/-- Settles O59: the four patterns are compared in pairs. -/
theorem flagEncodingIsOneHot : Obligations.FlagEncodingIsOneHot := by
  refine ⟨rfl, rfl, rfl, rfl, fun f g h => ?_⟩
  revert h
  cases f <;> cases g <;> decide

end Sys2Proof.Machine
end
